-- ==== Sys2Proof/Word.lean ====
section
/-! DEFINITION. The word types of the core: what `00_scope.md` R4 and R5 give a width.

Every register value is an unsigned integer of its stated width (R6): there is no signed quantity. -/

namespace Sys2Proof

/-- A memory byte or the value of a general register (`XLEN` = 8, R4). -/
abbrev Byte := BitVec 8

/-- An instruction word, or the value of `I`, `pc` or a stack entry (16 bits each, R4). -/
abbrev Word := BitVec 16

/-- A hex digit of an instruction word (R5). -/
abbrev Nibble := BitVec 4

/-- The 12-bit immediate `nnn` (R61). -/
abbrev Imm12 := BitVec 12

/-- The index of a general register, 0 to 15 (`NREGS` = 16, R4; R10). -/
abbrev RegIdx := Fin 16

/-- A key code, 0 to 15 (`NKEYS` = 16, R4; the port is 4 bits wide, R186). -/
abbrev KeyCode := Fin 16

end Sys2Proof
end

