-- ==== Sys2Proof/Config.lean ====
section
/-! DEFINITION. The implementation parameters (`00_scope.md` R4) and the free values.

The parameters of an instance never change (`10_state.md` R25). Those the source fixes (16 registers of 8 bits, 16 keys,
16 stack entries, a 64 by 32 screen, 5 bytes a glyph) are the sizes of the types; those it leaves open stand in `Params`,
at the defaults the spec gives them. -/

namespace Sys2Proof

/-- What an address at or beyond `MEM_SIZE` does (R4, R41, D2). -/
inductive AddrPolicy where
  /-- The address is reduced modulo `MEM_SIZE`: the rules of the spec. -/
  | wrap
  /-- The alternative of D2: the access raises `MemoryOutOfRange`. -/
  | fault
  deriving DecidableEq, Repr

/-- The parameters the source leaves open (R4). -/
structure Params where
  /-- `ADDR_BITS`, 12 to 16 (D1). -/
  addrBits : Nat
  /-- `ADDR_POLICY` (D2). -/
  addrPolicy : AddrPolicy
  /-- `PROGRAM_OFFSET` (D3). -/
  programOffset : Nat
  /-- `NGLYPHS` (D4). -/
  nGlyphs : Nat
  /-- `FONT`, the bytes from address 0 on (D4, R211). -/
  font : List Byte
  /-- `TIMER_HZ` (R4, R218). -/
  timerHz : Nat
  /-- How many clock periods, the unit of `elapsed_time`, make a second (R183 "`clock_rate`"; D18). -/
  clockHz : Nat
  deriving DecidableEq, Repr

namespace Config

/-- `GLYPH_BYTES` (R4). -/
def glyphBytes : Nat := 5

/-- The default font, glyphs 0 to 7 (R211). -/
def fontLow : List Byte :=
  [0xF0, 0x90, 0x90, 0x90, 0xF0,  0x20, 0x60, 0x20, 0x20, 0x70,
   0xF0, 0x10, 0xF0, 0x80, 0xF0,  0xF0, 0x10, 0xF0, 0x10, 0xF0,
   0x90, 0x90, 0xF0, 0x10, 0x10,  0xF0, 0x80, 0xF0, 0x10, 0xF0,
   0xF0, 0x80, 0xF0, 0x90, 0xF0,  0xF0, 0x10, 0x20, 0x40, 0x40]

/-- The default font, glyphs 8 to F (R211). -/
def fontHigh : List Byte :=
  [0xF0, 0x90, 0xF0, 0x90, 0xF0,  0xF0, 0x90, 0xF0, 0x10, 0xF0,
   0xF0, 0x90, 0xF0, 0x90, 0x90,  0xE0, 0x90, 0xE0, 0x90, 0xE0,
   0xF0, 0x80, 0x80, 0x80, 0xF0,  0xE0, 0x90, 0x90, 0x90, 0xE0,
   0xF0, 0x80, 0xF0, 0x80, 0xF0,  0xF0, 0x80, 0xF0, 0x80, 0x80]

/-- The instance that is modelled: every parameter at the default of R4.
The defaults are the spec's for points the source leaves open (logs 2 to 5 and 7).
`clockHz` is a DESIGN CHOICE of the model: the spec gives no unit of time; 600000 periods a second make
`TIMER_INTERVAL` 1000 periods. -/
def params : Params where
  addrBits := 12
  addrPolicy := .wrap
  programOffset := 0x200
  nGlyphs := 16
  font := fontLow ++ fontHigh
  timerHz := 600
  clockHz := 600000

/-- `MEM_SIZE = 2^ADDR_BITS` (R4). -/
def memSize : Nat := 2 ^ params.addrBits

/-- `FONT_SIZE`, the number of font bytes (R4). -/
def fontSize : Nat := params.font.length

/-- `PROGRAM_OFFSET` as the value of a 16-bit register (R4, R13). -/
def programOffset : Word := BitVec.ofNat 16 params.programOffset

/-- `TIMER_INTERVAL`, "`clock_rate / TIMER_HZ` periods" (R183). -/
def timerInterval : Nat := params.clockHz / params.timerHz

/-- FREE VALUE (log 1). The random byte: `Rnd()` of the `k`-th execution of `RND`, "an unconstrained 8-bit input" (R189, D19).
It has no body: nothing is known of any value of it. -/
opaque rnd : Nat → Byte

/-- FREE VALUE (log 20). The word a fetch fault at address `pc` records under the alternative `ADDR_POLICY = fault`:
no word was fetched, and D2 names none. It has no body. -/
opaque unfetchedWord : Word → Word

end Config

end Sys2Proof
end

