-- ==== Sys2Proof/Machine/State.lean ====
section
/-! DEFINITION. The state of the core (`10_state.md`), its value after reset (R30), and the reasons an outcome can stop. -/

namespace Sys2Proof.Machine

/-- The kinds of fault a step records in `FAULT` (`60_exceptions.md` R170). -/
inductive FaultKind where
  /-- Code 1: the fetched word is illegal (R171). -/
  | invalidInstruction
  /-- Code 2: `CALL` with 16 return addresses held (R172). -/
  | stackOverflow
  /-- Code 3: `RET` with none held (R173). -/
  | stackUnderflow
  /-- Code 4: `SKP` or `SKNP` with a value above 15 (R174). -/
  | keyIndexRange
  /-- Code 5, only under the alternative `ADDR_POLICY = fault` (D2). -/
  | memoryOutOfRange
  deriving DecidableEq, Repr

/-- The record a fault leaves (R20, R175). -/
structure FaultRecord where
  kind : FaultKind
  /-- The 16-bit instruction word that faulted. -/
  word : Word
  /-- `(pc - PROGRAM_OFFSET) mod 65536`. -/
  offset : Word
  deriving DecidableEq, Repr

/-- The framebuffer: 32 rows of 64 pixels, `true` = on (R17). -/
abbrev Screen := Vector (Vector Bool 64) 32

/-- Main memory: the bytes that differ from what they hold after reset, by rising address (`Machine/Memory.lean`). -/
abbrev Mem := List Host.Cell

/-- All the state the spec gives the core, and `draws`. -/
structure State where
  /-- `V[0..15]`; `V[15]` is `VF` (R10, R11). -/
  v : Vector Byte 16
  /-- `I`, the address register (R12). -/
  i : Word
  /-- The program counter (R13). -/
  pc : Word
  /-- `STACK[0..15]` (R14). -/
  stack : Vector Word 16
  /-- `SP`, how many return addresses are held, 0 to 16 (R14). -/
  sp : Fin 17
  /-- `DT`, the delay timer (R15). -/
  dt : Byte
  /-- `ST`, the sound timer (R16). -/
  st : Byte
  /-- `FB` (R17). -/
  fb : Screen
  /-- `KEY[0..15]`, `true` = down (R18). -/
  key : Vector Bool 16
  /-- `WAIT`, the suspension flag (R19). -/
  wait : Bool
  /-- `WAITREG`, the register a key code will go to (R19). -/
  waitReg : RegIdx
  /-- `FAULT`: `none` or the fault record (R20). -/
  fault : Option FaultRecord
  /-- `MEM` (R21). -/
  mem : Mem
  /-- `TACC`, in clock periods (R22; DESIGN CHOICE of the unit, log 7). -/
  tacc : Nat
  /-- The model's own: how many random bytes have been consumed, the index of the next free byte (log 1). -/
  draws : Nat
  deriving DecidableEq, Repr

/-- Reasons for which an `Outcome` is `fault`. There are none: each of the spec's faults is an effect on the state
(the record `FAULT`, R176) and so a next state, and no address is absent from the address space (R41).
Nobody raises one, which is safe. -/
inductive Fault
  deriving DecidableEq, Repr

/-- Reasons for which an `Outcome` is `refused`. -/
inductive Refusal where
  /-- Raised by an arm of `exec` whose instruction has no meaning yet: by no arm now. Safe. -/
  | notModelled (mnemonic : String)
  /-- Raised by `Safety.hostRun` on a transaction outside the host contract, and by `respond` on simultaneous requests
  (R190, R197, R213; U12 "refuse: outside the interface"), never by `step` or `exec`. Safe: the model says nothing of such a run. -/
  | outsideHostContract
  deriving DecidableEq, Repr

/-- The state after the `reset` transaction (R30); `draws` starts at 0 (DESIGN CHOICE, log 1: no statement rests on it). -/
def State.reset : State where
  v := Vector.replicate 16 0
  i := 0
  pc := Config.programOffset
  stack := Vector.replicate 16 0
  sp := 0
  dt := 0
  st := 0
  fb := Vector.replicate 32 (Vector.replicate 64 false)
  key := Vector.replicate 16 false
  wait := false
  waitReg := 0
  fault := none
  mem := []
  tacc := 0
  draws := 0

end Sys2Proof.Machine
end

