-- ==== Sys2Proof/Machine/Memory.lean ====
section
/-! DEFINITION. Main memory as a list of cells in one canonical form (`10_state.md` R21, `20_memory.md` R42, R44).

Addresses here are indexes into `MEM`, already reduced by `EA`. A cell is listed exactly when its byte differs from what an
unlisted address reads as, so equal memories are equal lists. -/

namespace Sys2Proof.Machine

/-- What an unlisted address reads as: its value after reset, the font byte below `FONT_SIZE` and 0 elsewhere (R21, R30). -/
def Memory.unlisted (a : Nat) : Byte := Config.params.font.getD a 0

/-- The byte listed at an address, if any. -/
def Memory.find : Mem → Nat → Option Byte
  | [], _ => none
  | c :: m, a => if c.1 = a then some c.2 else Memory.find m a

/-- The byte at an address (R42). -/
def Memory.read (m : Mem) (a : Nat) : Byte := (Memory.find m a).getD (Memory.unlisted a)

/-- Put a cell in its place by address. -/
def Memory.insert (a : Nat) (b : Byte) : Mem → Mem
  | [] => [(a, b)]
  | c :: m => if a < c.1 then (a, b) :: c :: m else c :: Memory.insert a b m

/-- Memory with one byte written (R44): the address is unlisted when the byte is what it would read as anyway. -/
def Memory.write (m : Mem) (a : Nat) (b : Byte) : Mem :=
  let rest := m.filter (fun c => c.1 ≠ a)
  if b = Memory.unlisted a then rest else Memory.insert a b rest

/-- The canonical form: addresses strictly rising and inside `MEM`, no cell equal to what its address reads as unlisted. -/
abbrev Memory.wf (m : Mem) : Prop :=
  m.Pairwise (fun c d => c.1 < d.1) ∧ ∀ c ∈ m, c.1 < Config.memSize ∧ c.2 ≠ Memory.unlisted c.1

end Sys2Proof.Machine
end

