-- ==== Sys2Proof/Machine/Ops.lean ====
section
/-! DEFINITION. The named operations over registers, memory and the screen, the fetch, and taking a fault. -/

namespace Sys2Proof.Machine

/-- The result of executing an instruction. -/
abbrev Result := Host.Outcome State Fault Refusal

/-! ### General registers (R10) -/

/-- `V[x]`. -/
def getV (s : State) (x : RegIdx) : Byte := s.v[x.val]

/-- `V[x] <- b`. -/
def setV (s : State) (x : RegIdx) (b : Byte) : State := { s with v := s.v.set x.val b x.isLt }

/-! ### Address register and program counter (R12, R13) -/

/-- `I <- w`. -/
def setI (s : State) (w : Word) : State := { s with i := w }

/-- `pc <- w`. -/
def setPc (s : State) (w : Word) : State := { s with pc := w }

/-- The default advance: `pc <- (pc + 2) mod 65536` (`40_engine_step.md` R86, D24). -/
def advance (s : State) : State := setPc s (s.pc + 2)

/-- The skip advance: `pc <- (pc + 4) mod 65536` (R87). -/
def advanceSkip (s : State) : State := setPc s (s.pc + 4)

/-- A skip instruction: past the next word when the condition holds, else the default advance (R87). -/
def skipIf (c : Bool) (s : State) : State := if c then advanceSkip s else advance s

/-- An instruction that ends with the default advance (R86). -/
def done (s : State) : Result := .next (advance s)

/-! ### Call stack (R14) -/

/-- Push a return address; `none` when 16 are held. -/
def pushStack (s : State) (w : Word) : Option State :=
  if h : s.sp.val < 16 then
    some { s with stack := s.stack.set s.sp.val w h, sp := ⟨s.sp.val + 1, by omega⟩ }
  else none

/-- Pop the top return address, which stays in its entry; `none` when none is held. -/
def popStack (s : State) : Option (Word × State) :=
  if h : 0 < s.sp.val then
    some (s.stack[s.sp.val - 1]'(by have := s.sp.isLt; omega), { s with sp := ⟨s.sp.val - 1, by omega⟩ })
  else none

/-! ### Memory (R41 to R44) -/

/-- The effective address: `EA(a) = a mod MEM_SIZE` (R41). -/
def ea (a : Nat) : Nat := a % Config.memSize

/-- `MemRead(a, 1)` (R42). -/
def memRead (s : State) (a : Nat) : Byte := Memory.read s.mem (ea a)

/-- `MemWrite(a, 1, b)` (R44). -/
def memWrite (s : State) (a : Nat) (b : Byte) : State := { s with mem := Memory.write s.mem (ea a) b }

/-- The two bytes at `pc`, each address reduced separately (R43, R83). -/
def fetchBytes (s : State) : List Byte := [memRead s s.pc.toNat, memRead s (s.pc.toNat + 1)]

/-- `MemRead(pc, 2)`: the byte at the lower address is the high byte (R43, R83). -/
def fetchWord (s : State) : Word := memRead s s.pc.toNat ++ memRead s (s.pc.toNat + 1)

/-! ### Screen (R17) -/

/-- `FB[r][c]`. -/
def getPixel (fb : Screen) (r : Fin 32) (c : Fin 64) : Bool := (fb[r.val])[c.val]

/-- `FB[r][c] <- p`. -/
def setPixel (fb : Screen) (r : Fin 32) (c : Fin 64) (p : Bool) : Screen :=
  fb.set r.val ((fb[r.val]).set c.val p c.isLt) r.isLt

/-- Every pixel off. -/
def clearScreen : Screen := Vector.replicate 32 (Vector.replicate 64 false)

/-! ### Keys (R18) -/

/-- `KEY[k]`. -/
def getKey (s : State) (k : KeyCode) : Bool := s.key[k.val]

/-- `KEY[k] <- p`. -/
def setKey (s : State) (k : KeyCode) (p : Bool) : State := { s with key := s.key.set k.val p k.isLt }

/-! ### Faults (R175 to R178)

There is no return from a fault: "There is no trap-return instruction and no handler" (R177); only `reset` clears the record. -/

/-- The code of a fault kind (R170, D29). -/
def FaultKind.code : FaultKind → BitVec 3
  | .invalidInstruction => 1
  | .stackOverflow => 2
  | .stackUnderflow => 3
  | .keyIndexRange => 4
  | .memoryOutOfRange => 5

/-- The record of a fault of the instruction word `w` (R175): the offset is `(pc - PROGRAM_OFFSET) mod 65536`. -/
def faultRecord (k : FaultKind) (w : Word) (s : State) : FaultRecord :=
  { kind := k, word := w, offset := s.pc - Config.programOffset }

/-- `raise Fault(k)` while executing the word `w` (R176): everything but `FAULT` keeps its value. -/
def raise (k : FaultKind) (w : Word) (s : State) : Result :=
  .next { s with fault := some (faultRecord k w s) }

/-- The machine is halted (R81). -/
def halted (s : State) : Bool := s.fault.isSome

/-- The machine is suspended (R82). -/
def suspended (s : State) : Bool := s.wait

/-! ### The address policy (R4, R41, D2) -/

/-- May the `n` bytes at `a, a + 1, ...` be accessed? Always under `wrap`; under `fault` only below `MEM_SIZE` (D2). -/
def inRange (p : AddrPolicy) (a n : Nat) : Bool :=
  match p with
  | .wrap => true
  | .fault => n = 0 || a + n ≤ Config.memSize

/-- The effect `t` of an instruction word `w` that accesses `n` bytes at `a`, or the fault of the policy `fault`, raised
"before any write of the instruction" (R41, D2). -/
def access (p : AddrPolicy) (w : Word) (a n : Nat) (s t : State) : Result :=
  if inRange p a n then .next t else raise .memoryOutOfRange w s

end Sys2Proof.Machine
end

