-- ==== Sys2Proof/Machine/Operands.lean ====
section
/-! DEFINITION. The operand forms (`30_encoding.md` R63, `43_index_memory.md`): immediates, the one addressing mode, the
register count of `STM` and `LDM`, key operands, decimal digits and screen coordinates. -/

namespace Sys2Proof.Machine

/-- `zext_16(nnn)` (R63). -/
def zextImm (nnn : Imm12) : Word := nnn.setWidth 16

/-- `zext_16` of a byte (R6). -/
def zextByte (b : Byte) : Word := b.setWidth 16

/-- `zext_8` of a key code (R185). -/
def zextKey (k : KeyCode) : Byte := BitVec.ofNat 8 k.val

/-- The address `I + k` before `EA`, the machine's one addressing mode (`43_index_memory.md`; R41, R49). -/
def indexAddr (s : State) (k : Nat) : Nat := s.i.toNat + k

/-- The sixteen register indexes in ascending order. -/
def allRegs : List RegIdx := [0, 1, 2, 3, 4, 5, 6, 7, 8, 9, 10, 11, 12, 13, 14, 15]

/-- The registers `0` to `x` inclusive, ascending (R63, R144). -/
def regsUpTo (x : RegIdx) : List RegIdx := allRegs.filter (· ≤ x)

/-- The key named by a register's value; none above 15 (R164, D14). -/
def keyOperand (b : Byte) : Option KeyCode := if h : b.toNat < 16 then some ⟨b.toNat, h⟩ else none

/-- `v div 100` (R143). -/
def hundreds (b : Byte) : Byte := BitVec.ofNat 8 (b.toNat / 100)

/-- `(v div 10) mod 10` (R143). -/
def tens (b : Byte) : Byte := BitVec.ofNat 8 (b.toNat / 10 % 10)

/-- `v mod 10` (R143). -/
def units (b : Byte) : Byte := BitVec.ofNat 8 (b.toNat % 10)

/-- A row coordinate, reduced modulo 32 (R151). -/
def rowOf (a : Nat) : Fin 32 := ⟨a % 32, Nat.mod_lt _ (by decide)⟩

/-- A column coordinate, reduced modulo 64 (R151). -/
def colOf (a : Nat) : Fin 64 := ⟨a % 64, Nat.mod_lt _ (by decide)⟩

end Sys2Proof.Machine
end

