-- ==== Sys2Proof/Machine/Flags.lean ====
section
/-! DEFINITION. The one flag, which lives in `V[15]` = `VF` (`10_state.md` R11), and every computation of it. -/

namespace Sys2Proof.Machine

/-- The index of `VF` (R11). -/
def vf : RegIdx := 15

/-- `VF <- b`. -/
def setVF (s : State) (b : Byte) : State := setV s vf b

/-- `b2i(c)` as a byte (R6). -/
def b2i (c : Bool) : Byte := if c then 1 else 0

/-- Carry out of an 8-bit addition: 1 iff `a + b > 255` (R126). -/
def carryFlag (a b : Byte) : Byte := b2i (decide (255 < a.toNat + b.toNat))

/-- Borrow of an 8-bit subtraction: 1 iff `a < b`, this machine's polarity (R127). -/
def borrowFlag (a b : Byte) : Byte := b2i (decide (a.toNat < b.toNat))

/-- The least significant bit (R128, R130). -/
def lsbFlag (a : Byte) : Byte := a &&& 1

end Sys2Proof.Machine
end

