-- ==== Sys2Proof/Machine/Alu.lean ====
section
/-! DEFINITION. Load, arithmetic, logic, shift and random instructions (`42_alu.md`). -/

namespace Sys2Proof.Machine

/-- Write a result to `V[x]`, then a flag to `VF`: with `x = 15` the flag remains (R133). -/
def setResultThenFlag (x : RegIdx) (result flag : Byte) (s : State) : State := setVF (setV s x result) flag

/-- Write the low bit of `V[x]` to `VF`, then a function of `V[x]`, read again, to `V[x]` (R128, R130, D12). -/
def flagThenShift (x : RegIdx) (shift : Byte → Byte) (s : State) : State :=
  let t := setVF s (lsbFlag (getV s x))
  setV t x (shift (getV t x))

/-- `V[x] - V[y]` with the borrow flag, the one operation of `SUB` and `SUB7` (R127, R129). -/
def subtract (x y : RegIdx) (s : State) : State :=
  setResultThenFlag x (getV s x - getV s y) (borrowFlag (getV s x) (getV s y)) s

/-- R120. -/
def execLdi (x : RegIdx) (nn : Byte) (s : State) : Result := done (setV s x nn)

/-- R121: no flag. -/
def execAddi (x : RegIdx) (nn : Byte) (s : State) : Result := done (setV s x (getV s x + nn))

/-- R122. -/
def execMov (x y : RegIdx) (s : State) : Result := done (setV s x (getV s y))

/-- R123. -/
def execOr (x y : RegIdx) (s : State) : Result := done (setV s x (getV s x ||| getV s y))

/-- R124. -/
def execAnd (x y : RegIdx) (s : State) : Result := done (setV s x (getV s x &&& getV s y))

/-- R125. -/
def execXor (x y : RegIdx) (s : State) : Result := done (setV s x (getV s x ^^^ getV s y))

/-- R126, R133: both operands sampled first, sum, then carry. -/
def execAdd (x y : RegIdx) (s : State) : Result :=
  done (setResultThenFlag x (getV s x + getV s y) (carryFlag (getV s x) (getV s y)) s)

/-- R127, R133: `VF` = 1 on borrow. -/
def execSub (x y : RegIdx) (s : State) : Result := done (subtract x y s)

/-- R128: the flag first, then the logical shift. -/
def execShr (x : RegIdx) (s : State) : Result := done (flagThenShift x (fun b => b >>> 1) s)

/-- R129: the same operation as `SUB`, not the reverse subtraction. -/
def execSub7 (x y : RegIdx) (s : State) : Result := done (subtract x y s)

/-- R130: the flag is bit 0, not the bit shifted out. -/
def execShl (x : RegIdx) (s : State) : Result := done (flagThenShift x (fun b => b <<< 1) s)

/-- `V[x] <- r & nn` for the random byte `r`; the next draw is a fresh one (R131, R189). -/
def randomInto (r : Byte) (x : RegIdx) (nn : Byte) (s : State) : State :=
  setV { s with draws := s.draws + 1 } x (r &&& nn)

/-- R131, the byte being the free value `Config.rnd` (log 1). -/
def execRnd (x : RegIdx) (nn : Byte) (s : State) : Result := done (randomInto (Config.rnd s.draws) x nn s)

end Sys2Proof.Machine
end

