-- ==== Sys2Proof/Syntax.lean ====
section
/-! DEFINITION. The instruction set as syntax: the 35 rows of `30_encoding.md` R65.

An operand has the type of its field (R61), so every term of `Instr` is an instruction of the machine.
Bits the machine does not decode (the low nibble of `SER` and `SNER`, the `y` field of `SHR` and `SHL`: R63, R67)
are no operand: words that differ in them decode to the same term (DEDUCED from "select the same instruction", log 18). -/

namespace Sys2Proof

/-- The 35 instructions, in the order of the opcode map (R65). -/
inductive Instr where
  /-- `0000`: the idle word (R84). -/
  | idle
  /-- `00E0`: clear the framebuffer (R150). -/
  | cls
  /-- `00EE`: return from subroutine (R100). -/
  | ret
  /-- `1nnn`: jump (R101). -/
  | jp (nnn : Imm12)
  /-- `2nnn`: call subroutine (R102). -/
  | call (nnn : Imm12)
  /-- `3xnn`: skip if register equals immediate (R103). -/
  | sei (x : RegIdx) (nn : Byte)
  /-- `4xnn`: skip if register differs from immediate (R104). -/
  | snei (x : RegIdx) (nn : Byte)
  /-- `5xy-`: skip if registers are equal (R105). -/
  | ser (x y : RegIdx)
  /-- `6xnn`: load immediate (R120). -/
  | ldi (x : RegIdx) (nn : Byte)
  /-- `7xnn`: add immediate (R121). -/
  | addi (x : RegIdx) (nn : Byte)
  /-- `8xy0`: copy register (R122). -/
  | mov (x y : RegIdx)
  /-- `8xy1`: bitwise or (R123). -/
  | or (x y : RegIdx)
  /-- `8xy2`: bitwise and (R124). -/
  | and (x y : RegIdx)
  /-- `8xy3`: bitwise exclusive or (R125). -/
  | xor (x y : RegIdx)
  /-- `8xy4`: add, carry to `VF` (R126). -/
  | add (x y : RegIdx)
  /-- `8xy5`: subtract, borrow to `VF` (R127). -/
  | sub (x y : RegIdx)
  /-- `8x-6`: shift right one bit (R128). -/
  | shr (x : RegIdx)
  /-- `8xy7`: subtract, second encoding (R129). -/
  | sub7 (x y : RegIdx)
  /-- `8x-E`: shift left one bit (R130). -/
  | shl (x : RegIdx)
  /-- `9xy-`: skip if registers differ (R106). -/
  | sner (x y : RegIdx)
  /-- `Annn`: load address register (R140). -/
  | lda (nnn : Imm12)
  /-- `Bnnn`: jump with offset `V[0]` (R107). -/
  | jpv0 (nnn : Imm12)
  /-- `Cxnn`: masked random byte (R131). -/
  | rnd (x : RegIdx) (nn : Byte)
  /-- `Dxyn`: draw a sprite of `n` rows (R151). -/
  | drw (x y : RegIdx) (n : Nibble)
  /-- `Ex9E`: skip if key down (R164). -/
  | skp (x : RegIdx)
  /-- `ExA1`: skip if key up (R165). -/
  | sknp (x : RegIdx)
  /-- `Fx07`: read the delay timer (R160). -/
  | gdt (x : RegIdx)
  /-- `Fx0A`: wait for a key press (R163). -/
  | wkey (x : RegIdx)
  /-- `Fx15`: set the delay timer (R161). -/
  | sdt (x : RegIdx)
  /-- `Fx18`: set the sound timer (R162). -/
  | sst (x : RegIdx)
  /-- `Fx1E`: add register to address register (R141). -/
  | adda (x : RegIdx)
  /-- `Fx29`: address of a font glyph (R142). -/
  | font (x : RegIdx)
  /-- `Fx33`: store three decimal digits (R143). -/
  | bcd (x : RegIdx)
  /-- `Fx55`: store registers `V[0]` to `V[x]` (R144). -/
  | stm (x : RegIdx)
  /-- `Fx65`: load registers `V[0]` to `V[x]` (R145). -/
  | ldm (x : RegIdx)
  deriving DecidableEq, Repr

/-- What an assembler statement may have as an operand (R69): a register `V<k>`, a number, or a label. -/
inductive AsmOperand where
  | reg (k : Nat)
  | imm (v : Nat)
  | label (name : String)
  deriving DecidableEq, Repr

/-- The statements of the assembler notation (R69, R70): an instruction, `.byte` or `.word`. -/
inductive AsmStmt where
  | instr (mnemonic : String) (operands : List AsmOperand)
  | bytes (values : List Nat)
  | word (value : Nat)
  deriving DecidableEq, Repr

/-- One line of the assembler notation: an optional label and a statement (R69). -/
structure AsmLine where
  label : Option String := none
  stmt : AsmStmt
  deriving DecidableEq, Repr

end Sys2Proof
end

