-- ==== Sys2Proof/WellFormed.lean ====
section
/-! DEFINITION. What is well formed: an instruction's operands, the parameters, and an assembler statement.

The operand types of `Instr` are exactly its fields, so `Instr.wellFormed` holds of every term
(`Laws/PerInstr.lean` proves it constructor by constructor); the checks that can refuse are those of the parameters
(R4's constraints) and of the assembler notation, whose numbers are unbounded ("must fit its field ... or the assembler
refuses the line", R69). -/

namespace Sys2Proof

/-- The operands of an instruction, each with the width of its field (R61, R62). -/
def Instr.operandFields : Instr → List (Nat × Nat)
  | .idle | .cls | .ret => []
  | .jp nnn | .call nnn | .lda nnn | .jpv0 nnn => [(12, nnn.toNat)]
  | .sei x nn | .snei x nn | .ldi x nn | .addi x nn | .rnd x nn => [(4, x.val), (8, nn.toNat)]
  | .ser x y | .sner x y => [(4, x.val), (4, y.val)]
  | .mov x y | .or x y | .and x y | .xor x y | .add x y | .sub x y | .sub7 x y => [(4, x.val), (4, y.val)]
  | .shr x | .shl x => [(4, x.val)]
  | .drw x y n => [(4, x.val), (4, y.val), (4, n.toNat)]
  | .skp x | .sknp x | .gdt x | .wkey x | .sdt x | .sst x => [(4, x.val)]
  | .adda x | .font x | .bcd x | .stm x | .ldm x => [(4, x.val)]

/-- Every operand fits its field (R61). -/
def Instr.wellFormed (i : Instr) : Bool :=
  i.operandFields.all fun f => f.2 < 2 ^ f.1

/-- `ADDR_BITS` is 12 to 16 (R4, D1). -/
def Params.addrBitsOk (p : Params) : Bool := 12 ≤ p.addrBits && p.addrBits ≤ 16

/-- `FONT_SIZE = NGLYPHS * GLYPH_BYTES` (R4). -/
def Params.fontOk (p : Params) : Bool := p.font.length = p.nGlyphs * Config.glyphBytes

/-- `FONT_SIZE <= PROGRAM_OFFSET < MEM_SIZE` (R4). -/
def Params.offsetOk (p : Params) : Bool :=
  p.font.length ≤ p.programOffset && p.programOffset < 2 ^ p.addrBits

/-- The timer interval is a whole positive number of clock periods (R183). -/
def Params.timerOk (p : Params) : Bool := 0 < p.timerHz && 0 < p.clockHz && p.clockHz % p.timerHz = 0

/-- The constraints of R4 together. -/
def Params.wellFormed (p : Params) : Bool := p.addrBitsOk && p.fontOk && p.offsetOk && p.timerOk

/-- The kinds of operand an assembler statement can require (R65's mnemonics, R69). -/
inductive OperandKind where
  | reg | nn | nnn | n
  deriving DecidableEq, Repr

/-- What each mnemonic takes (R65); no entry for a word that is no mnemonic. -/
def asmSignature : List (String × List OperandKind) :=
  [("IDLE", []), ("CLS", []), ("RET", []), ("JP", [.nnn]), ("CALL", [.nnn]),
   ("SEI", [.reg, .nn]), ("SNEI", [.reg, .nn]), ("SER", [.reg, .reg]), ("LDI", [.reg, .nn]), ("ADDI", [.reg, .nn]),
   ("MOV", [.reg, .reg]), ("OR", [.reg, .reg]), ("AND", [.reg, .reg]), ("XOR", [.reg, .reg]), ("ADD", [.reg, .reg]),
   ("SUB", [.reg, .reg]), ("SHR", [.reg]), ("SUB7", [.reg, .reg]), ("SHL", [.reg]), ("SNER", [.reg, .reg]),
   ("LDA", [.nnn]), ("JPV0", [.nnn]), ("RND", [.reg, .nn]), ("DRW", [.reg, .reg, .n]), ("SKP", [.reg]),
   ("SKNP", [.reg]), ("GDT", [.reg]), ("WKEY", [.reg]), ("SDT", [.reg]), ("SST", [.reg]),
   ("ADDA", [.reg]), ("FONT", [.reg]), ("BCD", [.reg]), ("STM", [.reg]), ("LDM", [.reg])]

/-- An operand fits its place: `V0` to `VF`, `nn` 0..255, `nnn` 0..4095 or a label, `n` 0..15 (R69). -/
def OperandKind.fits : OperandKind → AsmOperand → Bool
  | .reg, .reg k => k < 16
  | .nn, .imm v => v < 256
  | .nnn, .imm v => v < 4096
  | .nnn, .label _ => true
  | .n, .imm v => v < 16
  | _, _ => false

/-- The operands are of the required kinds and number, and each fits. -/
def operandsFit : List OperandKind → List AsmOperand → Bool
  | [], [] => true
  | k :: ks, o :: os => k.fits o && operandsFit ks os
  | _, _ => false

/-- The assembler accepts the statement (R69, R70). -/
def AsmStmt.wellFormed : AsmStmt → Bool
  | .instr m os =>
    match asmSignature.lookup m with
    | some ks => operandsFit ks os
    | none => false
  | .bytes vs => vs.all (· < 256)
  | .word w => w < 65536

end Sys2Proof
end

