-- ==== Sys2Proof/Decode.lean ====
section
/-! DEFINITION. The decoder, total on any bytes and rejecting by name, and after it the encoder and the opcode map
(`30_encoding.md` R60 to R67). -/

namespace Sys2Proof

/-! ### Fields (R5, R61) -/

/-- `op = w[15:12]`. -/
def fieldOp (w : Word) : Nibble := w.extractLsb' 12 4

/-- `x = w[11:8]`, a register index. -/
def fieldX (w : Word) : RegIdx := (w.extractLsb' 8 4).toFin

/-- `y = w[7:4]`, a register index. -/
def fieldY (w : Word) : RegIdx := (w.extractLsb' 4 4).toFin

/-- `n = w[3:0]`. -/
def fieldN (w : Word) : Nibble := w.extractLsb' 0 4

/-- `nn = w[7:0]`. -/
def fieldNN (w : Word) : Byte := w.extractLsb' 0 8

/-- `nnn = w[11:0]`. -/
def fieldNNN (w : Word) : Imm12 := w.extractLsb' 0 12

/-! ### The decoder -/

/-- Family 0 sub-dispatches on `nnn`, all low 12 bits (R64). -/
def decodeFamily0 (nnn : Imm12) : Option Instr :=
  match nnn.toNat with
  | 0x000 => some .idle
  | 0x0E0 => some .cls
  | 0x0EE => some .ret
  | _ => none

/-- Family 8 sub-dispatches on `n` (R64). -/
def decodeFamily8 (x y : RegIdx) (n : Nibble) : Option Instr :=
  match n.toNat with
  | 0x0 => some (.mov x y)
  | 0x1 => some (.or x y)
  | 0x2 => some (.and x y)
  | 0x3 => some (.xor x y)
  | 0x4 => some (.add x y)
  | 0x5 => some (.sub x y)
  | 0x6 => some (.shr x)
  | 0x7 => some (.sub7 x y)
  | 0xE => some (.shl x)
  | _ => none

/-- Family E sub-dispatches on `nn` (R64). -/
def decodeFamilyE (x : RegIdx) (nn : Byte) : Option Instr :=
  match nn.toNat with
  | 0x9E => some (.skp x)
  | 0xA1 => some (.sknp x)
  | _ => none

/-- Family F sub-dispatches on `nn` (R64). -/
def decodeFamilyF (x : RegIdx) (nn : Byte) : Option Instr :=
  match nn.toNat with
  | 0x07 => some (.gdt x)
  | 0x0A => some (.wkey x)
  | 0x15 => some (.sdt x)
  | 0x18 => some (.sst x)
  | 0x1E => some (.adda x)
  | 0x29 => some (.font x)
  | 0x33 => some (.bcd x)
  | 0x55 => some (.stm x)
  | 0x65 => some (.ldm x)
  | _ => none

/-- The instruction a word is, by its family (R64, R65); `none` for the illegal words of R66. -/
def decodeWord (w : Word) : Option Instr :=
  match (fieldOp w).toNat with
  | 0x0 => decodeFamily0 (fieldNNN w)
  | 0x1 => some (.jp (fieldNNN w))
  | 0x2 => some (.call (fieldNNN w))
  | 0x3 => some (.sei (fieldX w) (fieldNN w))
  | 0x4 => some (.snei (fieldX w) (fieldNN w))
  | 0x5 => some (.ser (fieldX w) (fieldY w))
  | 0x6 => some (.ldi (fieldX w) (fieldNN w))
  | 0x7 => some (.addi (fieldX w) (fieldNN w))
  | 0x8 => decodeFamily8 (fieldX w) (fieldY w) (fieldN w)
  | 0x9 => some (.sner (fieldX w) (fieldY w))
  | 0xA => some (.lda (fieldNNN w))
  | 0xB => some (.jpv0 (fieldNNN w))
  | 0xC => some (.rnd (fieldX w) (fieldNN w))
  | 0xD => some (.drw (fieldX w) (fieldY w) (fieldN w))
  | 0xE => decodeFamilyE (fieldX w) (fieldNN w)
  | _ => decodeFamilyF (fieldX w) (fieldNN w)

/-- Why bytes are no instruction. -/
inductive DecodeError where
  /-- Fewer than two bytes: no instruction is shorter (R60). -/
  | truncated
  /-- An illegal word (R66), the ground of the fault `InvalidInstruction` (R171). -/
  | invalidInstruction (word : Word)
  deriving DecidableEq, Repr

/-- Two bytes as a word, the first the high byte (R43, R45). -/
def wordOfBytes (hi lo : Byte) : Word := hi ++ lo

/-- Decode the first instruction of a list of bytes and return the rest (R60). -/
def decode : List Byte → Except DecodeError (Instr × List Byte)
  | hi :: lo :: rest =>
    match decodeWord (wordOfBytes hi lo) with
    | some i => .ok (i, rest)
    | none => .error (.invalidInstruction (wordOfBytes hi lo))
  | _ => .error .truncated

/-! ### The encoder (R62, R65) -/

/-- A register index as a hex digit. -/
def regBits (x : RegIdx) : Nibble := BitVec.ofFin x

/-- Format `NNN`. -/
def encNNN (op : Nibble) (nnn : Imm12) : Word := op ++ nnn

/-- Formats `XNN` and `XS`. -/
def encXNN (op : Nibble) (x : RegIdx) (nn : Byte) : Word := op ++ regBits x ++ nn

/-- Formats `XY`, `XYS` and `XYN`. -/
def encXYN (op : Nibble) (x y : RegIdx) (n : Nibble) : Word := op ++ regBits x ++ regBits y ++ n

/-- The word of an instruction; bits that are not decoded are 0, as an assembler emits them (R67, R69). -/
def encode : Instr → Word
  | .idle => encNNN 0x0 0x000
  | .cls => encNNN 0x0 0x0E0
  | .ret => encNNN 0x0 0x0EE
  | .jp nnn => encNNN 0x1 nnn
  | .call nnn => encNNN 0x2 nnn
  | .sei x nn => encXNN 0x3 x nn
  | .snei x nn => encXNN 0x4 x nn
  | .ser x y => encXYN 0x5 x y 0x0
  | .ldi x nn => encXNN 0x6 x nn
  | .addi x nn => encXNN 0x7 x nn
  | .mov x y => encXYN 0x8 x y 0x0
  | .or x y => encXYN 0x8 x y 0x1
  | .and x y => encXYN 0x8 x y 0x2
  | .xor x y => encXYN 0x8 x y 0x3
  | .add x y => encXYN 0x8 x y 0x4
  | .sub x y => encXYN 0x8 x y 0x5
  | .shr x => encXYN 0x8 x 0 0x6
  | .sub7 x y => encXYN 0x8 x y 0x7
  | .shl x => encXYN 0x8 x 0 0xE
  | .sner x y => encXYN 0x9 x y 0x0
  | .lda nnn => encNNN 0xA nnn
  | .jpv0 nnn => encNNN 0xB nnn
  | .rnd x nn => encXNN 0xC x nn
  | .drw x y n => encXYN 0xD x y n
  | .skp x => encXNN 0xE x 0x9E
  | .sknp x => encXNN 0xE x 0xA1
  | .gdt x => encXNN 0xF x 0x07
  | .wkey x => encXNN 0xF x 0x0A
  | .sdt x => encXNN 0xF x 0x15
  | .sst x => encXNN 0xF x 0x18
  | .adda x => encXNN 0xF x 0x1E
  | .font x => encXNN 0xF x 0x29
  | .bcd x => encXNN 0xF x 0x33
  | .stm x => encXNN 0xF x 0x55
  | .ldm x => encXNN 0xF x 0x65

/-- The high byte of a word, the one at the lower address (R45). -/
def highByte (w : Word) : Byte := w.extractLsb' 8 8

/-- The low byte of a word. -/
def lowByte (w : Word) : Byte := w.extractLsb' 0 8

/-- A word as the hardware stores it: high byte first (R45). -/
def bytesOfWord (w : Word) : List Byte := [highByte w, lowByte w]

/-! ### The opcode map (R65) -/

/-- One row: word `w` is the instruction exactly when `w & mask = bits`. -/
structure OpRow where
  mnemonic : String
  mask : Word
  bits : Word
  deriving DecidableEq, Repr

/-- The word matches the row (R65). -/
def OpRow.holds (r : OpRow) (w : Word) : Bool := w &&& r.mask = r.bits

/-- The row of each instruction (R65). -/
def Instr.row : Instr → OpRow
  | .idle => ⟨"IDLE", 0xFFFF, 0x0000⟩
  | .cls => ⟨"CLS", 0xFFFF, 0x00E0⟩
  | .ret => ⟨"RET", 0xFFFF, 0x00EE⟩
  | .jp _ => ⟨"JP", 0xF000, 0x1000⟩
  | .call _ => ⟨"CALL", 0xF000, 0x2000⟩
  | .sei _ _ => ⟨"SEI", 0xF000, 0x3000⟩
  | .snei _ _ => ⟨"SNEI", 0xF000, 0x4000⟩
  | .ser _ _ => ⟨"SER", 0xF000, 0x5000⟩
  | .ldi _ _ => ⟨"LDI", 0xF000, 0x6000⟩
  | .addi _ _ => ⟨"ADDI", 0xF000, 0x7000⟩
  | .mov _ _ => ⟨"MOV", 0xF00F, 0x8000⟩
  | .or _ _ => ⟨"OR", 0xF00F, 0x8001⟩
  | .and _ _ => ⟨"AND", 0xF00F, 0x8002⟩
  | .xor _ _ => ⟨"XOR", 0xF00F, 0x8003⟩
  | .add _ _ => ⟨"ADD", 0xF00F, 0x8004⟩
  | .sub _ _ => ⟨"SUB", 0xF00F, 0x8005⟩
  | .shr _ => ⟨"SHR", 0xF00F, 0x8006⟩
  | .sub7 _ _ => ⟨"SUB7", 0xF00F, 0x8007⟩
  | .shl _ => ⟨"SHL", 0xF00F, 0x800E⟩
  | .sner _ _ => ⟨"SNER", 0xF000, 0x9000⟩
  | .lda _ => ⟨"LDA", 0xF000, 0xA000⟩
  | .jpv0 _ => ⟨"JPV0", 0xF000, 0xB000⟩
  | .rnd _ _ => ⟨"RND", 0xF000, 0xC000⟩
  | .drw _ _ _ => ⟨"DRW", 0xF000, 0xD000⟩
  | .skp _ => ⟨"SKP", 0xF0FF, 0xE09E⟩
  | .sknp _ => ⟨"SKNP", 0xF0FF, 0xE0A1⟩
  | .gdt _ => ⟨"GDT", 0xF0FF, 0xF007⟩
  | .wkey _ => ⟨"WKEY", 0xF0FF, 0xF00A⟩
  | .sdt _ => ⟨"SDT", 0xF0FF, 0xF015⟩
  | .sst _ => ⟨"SST", 0xF0FF, 0xF018⟩
  | .adda _ => ⟨"ADDA", 0xF0FF, 0xF01E⟩
  | .font _ => ⟨"FONT", 0xF0FF, 0xF029⟩
  | .bcd _ => ⟨"BCD", 0xF0FF, 0xF033⟩
  | .stm _ => ⟨"STM", 0xF0FF, 0xF055⟩
  | .ldm _ => ⟨"LDM", 0xF0FF, 0xF065⟩

/-- One instruction of each row, in the map's order. -/
def instrSamples : List Instr :=
  [.idle, .cls, .ret, .jp 0, .call 0, .sei 0 0, .snei 0 0, .ser 0 0, .ldi 0 0, .addi 0 0, .mov 0 0, .or 0 0] ++
  [.and 0 0, .xor 0 0, .add 0 0, .sub 0 0, .shr 0, .sub7 0 0, .shl 0, .sner 0 0, .lda 0, .jpv0 0, .rnd 0 0, .drw 0 0 0] ++
  [.skp 0, .sknp 0, .gdt 0, .wkey 0, .sdt 0, .sst 0, .adda 0, .font 0, .bcd 0, .stm 0, .ldm 0]

/-- The opcode map: 35 rows (R65). -/
def opcodeMap : List OpRow := instrSamples.map Instr.row

/-! ### The host's question -/

/-- The instruction the decoder reads from an instruction whose table bits are `w`: the table's one word is 16 bits wide
and bits above `nbits` are 0, so the bytes in memory are the word's high byte, then its low byte. No instruction is longer
than 16 bits (R60): a longer `nbits` is refused. -/
def decodeTableWord (nbits w : Nat) : Option Instr :=
  if nbits ≤ 16 then
    match decode (bytesOfWord (BitVec.ofNat 16 (w % 2 ^ nbits))) with
    | .ok (i, _) => some i
    | .error _ => none
  else none

end Sys2Proof
end

