-- ==== Sys2Proof/Machine/ControlFlow.lean ====
section
/-! DEFINITION. The idle word (`40_engine_step.md` R84) and the control-transfer instructions (`41_control_flow.md`). -/

namespace Sys2Proof.Machine

/-- R84: nothing changes, `pc` is not advanced. -/
def execIdle (s : State) : Result := .next s

/-- R100: pop into `pc`; `StackUnderflow` before any write when nothing is held. -/
def execRet (s : State) : Result :=
  match popStack s with
  | some (w, t) => .next (setPc t w)
  | none => raise .stackUnderflow (encode .ret) s

/-- R101. -/
def execJp (nnn : Imm12) (s : State) : Result := .next (setPc s (zextImm nnn))

/-- R102: push the address of the next instruction; `StackOverflow` before any write when the stack is full. -/
def execCall (nnn : Imm12) (s : State) : Result :=
  match pushStack s (s.pc + 2) with
  | some t => .next (setPc t (zextImm nnn))
  | none => raise .stackOverflow (encode (.call nnn)) s

/-- R103. -/
def execSei (x : RegIdx) (nn : Byte) (s : State) : Result := .next (skipIf (getV s x = nn) s)

/-- R104. -/
def execSnei (x : RegIdx) (nn : Byte) (s : State) : Result := .next (skipIf (getV s x ≠ nn) s)

/-- R105. -/
def execSer (x y : RegIdx) (s : State) : Result := .next (skipIf (getV s x = getV s y) s)

/-- R106. -/
def execSner (x y : RegIdx) (s : State) : Result := .next (skipIf (getV s x ≠ getV s y) s)

/-- R107: the offset register is always `V[0]`; the sum fits 16 bits. -/
def execJpv0 (nnn : Imm12) (s : State) : Result := .next (setPc s (zextImm nnn + zextByte (getV s 0)))

end Sys2Proof.Machine
end

