-- ==== Sys2Proof/Machine/Display.lean ====
section
/-! DEFINITION. The display instructions and the XOR-sprite compositor (`44_display.md`). -/

namespace Sys2Proof.Machine

/-- What the loops of R151 carry: the framebuffer and `hit`. -/
structure Canvas where
  fb : Screen
  hit : Bool
  deriving DecidableEq, Repr

/-- One pixel of R151's inner loop, `s` the source bit. -/
def Canvas.blend (c : Canvas) (row : Fin 32) (col : Fin 64) (s : Bool) : Canvas :=
  { fb := setPixel c.fb row col (getPixel c.fb row col ^^ s), hit := c.hit || (s && getPixel c.fb row col) }

/-- The eight pixels of one sprite byte, most significant bit first, from column `x0` on (R151, `for j from 0 to 7`). -/
def Canvas.blendByte (x0 : Nat) (row : Fin 32) (b : Byte) (c : Canvas) : Canvas :=
  (List.range 8).foldl (fun c j => c.blend row (colOf (x0 + j)) (b.getLsbD (7 - j))) c

/-- The `n` rows of a sprite, row `r` from the byte `sprite r` (R151, `for r from 0 to n - 1`). -/
def Canvas.blendRows (sprite : Nat → Byte) (x0 y0 n : Nat) (c : Canvas) : Canvas :=
  (List.range n).foldl (fun c r => c.blendByte x0 (rowOf (y0 + r)) (sprite r)) c

/-- R150. -/
def execCls (s : State) : Result := done { s with fb := clearScreen }

/-- The state after compositing an `n`-row sprite at `(V[x], V[y])`: both coordinates are sampled first and `VF` is written
last (R151, R152, D13). -/
def drawSprite (x y : RegIdx) (n : Nibble) (s : State) : State :=
  let c := Canvas.blendRows (fun r => memRead s (indexAddr s r)) (getV s x).toNat (getV s y).toNat n.toNat ⟨s.fb, false⟩
  setVF { s with fb := c.fb } (b2i c.hit)

/-- R151. -/
def execDrw (x y : RegIdx) (n : Nibble) (s : State) : Result :=
  access Config.params.addrPolicy (encode (.drw x y n)) (indexAddr s 0) n.toNat s (advance (drawSprite x y n s))

end Sys2Proof.Machine
end

