-- ==== Sys2Proof/Machine/IndexMemory.lean ====
section
/-! DEFINITION. Address-register and memory-transfer instructions (`43_index_memory.md`). None of them but `LDA`, `ADDA` and
`FONT` writes `I` (R146). -/

namespace Sys2Proof.Machine

/-- R140. -/
def execLda (nnn : Imm12) (s : State) : Result := done (setI s (zextImm nnn))

/-- R141: wraps at 65536, no flag. -/
def execAdda (x : RegIdx) (s : State) : Result := done (setI s (s.i + zextByte (getV s x)))

/-- R142: the whole byte is multiplied. -/
def execFont (x : RegIdx) (s : State) : Result := done (setI s (5 * zextByte (getV s x)))

/-- The three digits of `b` at `I`, `I + 1`, `I + 2`, hundreds first (R143). -/
def storeDigits (b : Byte) (s : State) : State :=
  memWrite (memWrite (memWrite s (indexAddr s 0) (hundreds b)) (indexAddr s 1) (tens b)) (indexAddr s 2) (units b)

/-- `MemWrite(I + k, 1, V[k])` for each `k` of a list, in order (R144). -/
def storeRegs (ks : List RegIdx) (s : State) : State :=
  ks.foldl (fun t k => memWrite t (indexAddr s k.val) (getV s k)) s

/-- `V[k] <- MemRead(I + k, 1)` for each `k` of a list, in order (R145). -/
def loadRegs (ks : List RegIdx) (s : State) : State :=
  ks.foldl (fun t k => setV t k (memRead s (indexAddr s k.val))) s

/-- R143. -/
def execBcd (x : RegIdx) (s : State) : Result :=
  access Config.params.addrPolicy (encode (.bcd x)) (indexAddr s 0) 3 s (advance (storeDigits (getV s x) s))

/-- R144. -/
def execStm (x : RegIdx) (s : State) : Result :=
  access Config.params.addrPolicy (encode (.stm x)) (indexAddr s 0) (x.val + 1) s (advance (storeRegs (regsUpTo x) s))

/-- R145. -/
def execLdm (x : RegIdx) (s : State) : Result :=
  access Config.params.addrPolicy (encode (.ldm x)) (indexAddr s 0) (x.val + 1) s (advance (loadRegs (regsUpTo x) s))

end Sys2Proof.Machine
end

