-- ==== Sys2Proof/Machine/TimerKey.lean ====
section
/-! DEFINITION. Timer-access, key-wait and key-test instructions (`45_timer_key.md`). -/

namespace Sys2Proof.Machine

/-- R160. -/
def execGdt (x : RegIdx) (s : State) : Result := done (setV s x s.dt)

/-- R161: the gate accumulator is not reset. -/
def execSdt (x : RegIdx) (s : State) : Result := done { s with dt := getV s x }

/-- R162. -/
def execSst (x : RegIdx) (s : State) : Result := done { s with st := getV s x }

/-- R163: `V[x]` and `KEY` are not looked at; `pc` advances in this step. -/
def execWkey (x : RegIdx) (s : State) : Result := done { s with wait := true, waitReg := x }

/-- The test of `SKP` and `SKNP` (R164, R165): skip when the key named by `V[x]` is in the state `down`; `KeyIndexRange`
before any write when the value is above 15. -/
def skipOnKey (down : Bool) (w : Word) (x : RegIdx) (s : State) : Result :=
  match keyOperand (getV s x) with
  | some k => .next (skipIf (getKey s k = down) s)
  | none => raise .keyIndexRange w s

/-- R164. -/
def execSkp (x : RegIdx) (s : State) : Result := skipOnKey true (encode (.skp x)) x s

/-- R165. -/
def execSknp (x : RegIdx) (s : State) : Result := skipOnKey false (encode (.sknp x)) x s

end Sys2Proof.Machine
end

