-- ==== Sys2Proof/Machine/Step.lean ====
section
/-! DEFINITION. The `step` transaction (`40_engine_step.md` R80), and the placing of one instruction where it is fetched. -/

namespace Sys2Proof.Machine

/-- One `step` (R80): halted gate (R81), suspended gate (R82), fetch (R83), decode (R85), execute. The idle-word test
(line 4) is the decoding of 0x0000 to `IDLE`, whose execution changes nothing (R84; DEDUCED, log 15). The fetch cannot fault
under `ADDR_POLICY = wrap` (R83); the third test is the alternative policy's (D2). -/
def step (s : State) : Host.Outcome State Fault Refusal :=
  if halted s then .next s
  else if suspended s then .next s
  else if inRange Config.params.addrPolicy s.pc.toNat 2 then
    match decodeWord (fetchWord s) with
    | some i => exec i s
    | none => raise .invalidInstruction (fetchWord s) s
  else raise .memoryOutOfRange (Config.unfetchedWord s.pc) s

/-- `s` with the instruction whose table bits are `w` stored at `pc`, high byte first, and with the two gates of `step`
open (`FAULT` none, `WAIT` 0), so that the next step runs it. Stands for the `load` of a program (R212; log 14). -/
def State.withFetchWord (s : State) (nbits w : Nat) : State :=
  let word : Word := BitVec.ofNat 16 (w % 2 ^ nbits)
  let t := memWrite (memWrite s s.pc.toNat (highByte word)) (s.pc.toNat + 1) (lowByte word)
  { t with fault := none, wait := false }

end Sys2Proof.Machine
end

