-- ==== Sys2Proof/Machine/Transactions.lean ====
section
/-! DEFINITION. The six transactions of the core (`00_scope.md` R8, `60_exceptions.md` R182 to R190,
`70_reset_and_hazards.md` R210, R212), the operation `timer_decrement`, and the outputs (R187, R188, R196). -/

namespace Sys2Proof.Machine

/-! ### Timer unit -/

/-- A timer moves 1 towards 0 and stops there (R182). -/
def timerDown (b : Byte) : Byte := if 0 < b then b - 1 else b

/-- The operation `timer_decrement` (R182): both timers, each saturating at 0. -/
def timerDecrement (s : State) : State := { s with dt := timerDown s.dt, st := timerDown s.st }

/-- The untimed transaction: what the environment may issue between any two transactions in a model without time
(R184), frozen while halted (R195). -/
def untimedDecrement (s : State) : State := if halted s then s else timerDecrement s

/-- `tick_timers(dt)`, `dt` in clock periods (R183): at most one decrement, and the interval restarts at it. -/
def tickTimers (dt : Nat) (s : State) : State :=
  if halted s then s
  else if Config.timerInterval ≤ s.tacc + dt then { timerDecrement s with tacc := 0 }
  else { s with tacc := s.tacc + dt }

/-! ### Input latch -/

/-- `key_down(k)` (R185): the table always, and the resume when suspended, as one transition. -/
def keyDown (k : KeyCode) (s : State) : State :=
  if halted s then s
  else
    let t := setKey s k true
    if suspended s then { setV t s.waitReg (zextKey k) with wait := false } else t

/-- `key_up(k)` (R186): never ends a wait. -/
def keyUp (k : KeyCode) (s : State) : State := if halted s then s else setKey s k false

/-! ### Load and reset -/

/-- The largest image, `MEM_SIZE - PROGRAM_OFFSET` bytes (R212). -/
def maxImage : Nat := Config.memSize - Config.params.programOffset

/-- Write bytes at consecutive addresses from `a` on. -/
def storeBytes : Nat → List Byte → State → State
  | _, [], s => s
  | a, b :: bs, s => storeBytes (a + 1) bs (memWrite s a b)

/-- `load(bytes)` (R212): only the image bytes change; a refused load writes nothing. -/
def load (bytes : List Byte) (s : State) : State :=
  if halted s then s
  else if maxImage < bytes.length then s
  else storeBytes Config.params.programOffset bytes s

/-- Does `load(bytes)` report `LoadError` (R180, R212)? It sets no state. -/
def loadError (bytes : List Byte) (s : State) : Bool := !halted s && decide (maxImage < bytes.length)

/-- The `reset` transaction (R210): the state of R30 whatever the state before. The free random byte has no state to reset
(R23), so the index of the next draw is kept (log 1). -/
def resetCore (s : State) : State := { State.reset with draws := s.draws }

/-! ### Transactions -/

/-- What the core can be asked to do (R8, R196). Time and key codes out of range cannot be presented (R186, R197): the types
have no such value. -/
inductive Transaction where
  | reset
  | load (bytes : List Byte)
  | step
  | tickTimers (elapsed : Nat)
  | keyDown (code : KeyCode)
  | keyUp (code : KeyCode)
  deriving DecidableEq, Repr

/-- One transaction, performed to completion before the next (R190). -/
def transact (t : Transaction) (s : State) : Result :=
  match t with
  | .reset => .next (resetCore s)
  | .load bytes => .next (load bytes s)
  | .step => step s
  | .tickTimers dt => .next (tickTimers dt s)
  | .keyDown k => .next (keyDown k s)
  | .keyUp k => .next (keyUp k s)

/-- A sequence of transactions in the order they arrive (R190: any interleaving is possible). -/
def transactAll : List Transaction → State → Result
  | [], s => .next s
  | t :: ts, s =>
    match transact t s with
    | .next s' => transactAll ts s'
    | .fault r => .fault r
    | .refused r => .refused r

/-! ### Ports (R196, D21) -/

/-- The request ports. The port `rnd` is the free byte `Config.rnd` (log 1). -/
structure Inputs where
  rst : Bool := false
  stepReq : Bool := false
  tickReq : Bool := false
  tickDt : Nat := 0
  keyReq : Bool := false
  keyIsDown : Bool := false
  keyCode : BitVec 4 := 0
  loadReq : Bool := false
  loadLen : BitVec 16 := 0
  loadData : List Byte := []
  deriving DecidableEq, Repr

/-- The transactions the asserted requests stand for. -/
def Inputs.requests (p : Inputs) : List Transaction :=
  (if p.rst then [.reset] else []) ++ (if p.stepReq then [.step] else []) ++
  (if p.tickReq then [.tickTimers p.tickDt] else []) ++
  (if p.keyReq then [if p.keyIsDown then .keyDown p.keyCode.toFin else .keyUp p.keyCode.toFin] else []) ++
  (if p.loadReq then [.load (p.loadData.take p.loadLen.toNat)] else [])

/-- What the ports ask of the core: "At most one of the request inputs is asserted at a time; each asserted request is one
transaction" (R196). More than one is outside the interface (U12). -/
def respond (p : Inputs) (s : State) : Result :=
  match p.requests with
  | [] => .next s
  | [t] => transact t s
  | _ => .refused .outsideHostContract

/-! ### Outputs -/

/-- The output ports (R196); `loadErr` belongs to one `load` and is `loadError`. -/
structure Outputs where
  /-- `fb`: the framebuffer (R187). -/
  fb : Screen
  /-- `snd`: the sound timer (R188). -/
  snd : Byte
  /-- `waiting`: `WAIT`. -/
  waiting : Bool
  /-- `fault_valid`, `fault_kind`, `fault_word`, `fault_offset`: `FAULT`. -/
  fault : Option (BitVec 3 × Word × Word)
  deriving DecidableEq, Repr

/-- What the host reads between transactions. -/
def outputs (s : State) : Outputs where
  fb := s.fb
  snd := s.st
  waiting := s.wait
  fault := s.fault.map fun f => (f.kind.code, f.word, f.offset)

/-- "0 = silent, nonzero = tone active" (R188). -/
def tone (s : State) : Bool := s.st ≠ 0

end Sys2Proof.Machine
end

