-- ==== Sys2Proof/Safety.lean ====
section
/-! DEFINITION. What counts as a safe run, in the terms claims use: the invariant, the end of a run, the host contract, and
what two states must share for no instruction to tell them apart. -/

namespace Sys2Proof.Safety

open Sys2Proof.Machine

/-- The invariant of the machine: memory in its canonical form, and less than a whole interval on the timer gate (R183). -/
abbrev Inv (s : State) : Prop := Memory.wf s.mem ∧ s.tacc < Config.timerInterval

/-- The run has gone wrong (R177): "every claim about a program takes `FAULT = None` throughout as something to prove". -/
def Failed (s : State) : Prop := s.fault ≠ none

/-- The normal end of a run (R89 (b)): the engine would fetch the idle word. -/
def EndedIdle (s : State) : Prop := s.fault = none ∧ s.wait = false ∧ fetchWord s = 0

/-- The other stationary state (R89 (c)): the word at `pc` is a jump to `pc`. -/
def EndedLoop (s : State) : Prop :=
  s.fault = none ∧ s.wait = false ∧ ∃ nnn, decodeWord (fetchWord s) = some (.jp nnn) ∧ zextImm nnn = s.pc

/-- Two stacks hold the same return addresses; dead entries may differ (R14). -/
def SameLiveStack (s t : State) : Prop :=
  s.sp = t.sp ∧ ∀ k (h : k < 16), k < s.sp.val → s.stack[k] = t.stack[k]

/-- Two states differ at most in dead stack entries (R14: "no instruction can read them"). -/
def SameButDeadStack (s t : State) : Prop :=
  SameLiveStack s t ∧ t = { s with stack := t.stack }

/-! ### The host contract (R197, R213) -/

/-- Where the host stands in the boot order; the host's own, no state of the core. -/
inductive HostPhase where
  /-- Nothing issued yet: only `reset` may come (R197). -/
  | powerUp
  /-- After `reset`, before the one `load` (R213 (1)). -/
  | fresh
  /-- The load was refused: the machine must not be stepped (R213 (2)). -/
  | refused
  /-- Loaded: everything but another `load` (R213 (3)). -/
  | loaded
  deriving DecidableEq, Repr

/-- The phase after a transaction the contract allows, `none` for one it does not. -/
def hostAllows (p : HostPhase) (t : Transaction) (s : State) : Option HostPhase :=
  match p, t with
  | _, .reset => some .fresh
  | .powerUp, _ => none
  | .fresh, .load bytes => some (if loadError bytes s then .refused else .loaded)
  | _, .load _ => none
  | .loaded, .step => some .loaded
  | _, .step => none
  | p, .tickTimers _ => some p
  | p, .keyDown _ => some p
  | p, .keyUp _ => some p

/-- A run under the host contract; outside it the model has no move (U12). -/
def hostRun (p : HostPhase) (s : State) : List Transaction → Result
  | [] => .next s
  | t :: ts =>
    match hostAllows p t s with
    | none => .refused .outsideHostContract
    | some q =>
      match transact t s with
      | .next s' => hostRun q s' ts
      | .fault r => .fault r
      | .refused r => .refused r

/-! ### What each instruction writes (the access table, R29) -/

/-- The general registers an instruction names as its destination (R10, R29). -/
def destRegs : Instr → List RegIdx
  | .ldi x _ | .addi x _ | .rnd x _ | .mov x _ | .or x _ | .and x _ | .xor x _ => [x]
  | .add x _ | .sub x _ | .sub7 x _ | .shr x | .shl x | .gdt x => [x]
  | .ldm x => regsUpTo x
  | .idle | .cls | .ret | .jp _ | .call _ | .sei _ _ | .snei _ _ | .ser _ _ | .sner _ _ | .lda _ | .jpv0 _ => []
  | .drw _ _ _ | .skp _ | .sknp _ | .wkey _ | .sdt _ | .sst _ | .adda _ | .font _ | .bcd _ | .stm _ => []

/-- The six instructions that write `VF` as a side effect (R11). -/
def setsFlag : Instr → Bool
  | .add _ _ | .sub _ _ | .shr _ | .sub7 _ _ | .shl _ | .drw _ _ _ => true
  | _ => false

/-- The three writers of `I` (R12). -/
def writesIndex : Instr → Bool
  | .lda _ | .adda _ | .font _ => true
  | _ => false

/-- The two writers of the framebuffer (R17). -/
def writesScreen : Instr → Bool
  | .cls | .drw _ _ _ => true
  | _ => false

/-- The two instructions that use the call stack (R14). -/
def usesStack : Instr → Bool
  | .ret | .call _ => true
  | _ => false

/-- The four instructions with a fault condition (R170). -/
def mayFault : Instr → Bool
  | .ret | .call _ | .skp _ | .sknp _ => true
  | _ => false

/-- The six skip instructions (R87). -/
def isSkip : Instr → Bool
  | .sei _ _ | .snei _ _ | .ser _ _ | .sner _ _ | .skp _ | .sknp _ => true
  | _ => false

/-- The instructions that always set `pc` themselves, and `IDLE`, which leaves it (R86). -/
def setsPc : Instr → Bool
  | .idle | .jp _ | .call _ | .ret | .jpv0 _ => true
  | _ => false

/-- Does the instruction store to the byte at address `a` (R29, R49)? -/
def storesTo (i : Instr) (s : State) (a : Nat) : Bool :=
  match i with
  | .bcd _ => (List.range 3).any fun k => ea a = ea (indexAddr s k)
  | .stm x => (regsUpTo x).any fun k => ea a = ea (indexAddr s k.val)
  | _ => false

end Sys2Proof.Safety
end

