-- ==== Sys2Proof/Certificates/Slice0/Obligations.lean ====
section
/-! DEFINITION. The statements for the provers, each from the spec's rules; a statement that rests on an inference of the spec or
on a choice of the model says so in its docstring. -/

open Sys2Proof Sys2Proof.Machine Sys2Proof.Safety

/-- Decoding the bytes of an encoded instruction gives the instruction back. (R60, R61, R62, R65) -/
def Obligations.DecodeOfEncodeIsTheInstruction : Prop :=
  ∀ (i : Instr) (rest : List Byte), decode (bytesOfWord (encode i) ++ rest) = .ok (i, rest)

/-- A word decodes to an instruction of a row exactly when it matches the row's mask and match bits. (R64, R65) -/
def Obligations.WordIsAnInstructionExactlyByItsRow : Prop :=
  ∀ w : Word,
    (∀ r ∈ opcodeMap, r.holds w = true ↔ ∃ i, decodeWord w = some i ∧ i.row = r) ∧
    ((∀ r ∈ opcodeMap, r.holds w = false) ↔ decodeWord w = none)

/-- The illegal words are exactly those of families 0, 8, E and F that the spec lists. (R66) -/
def Obligations.IllegalWordsAreExactlyThoseListed : Prop :=
  ∀ w : Word, decodeWord w = none ↔
    (fieldOp w = 0x0 ∧ fieldNNN w ≠ 0x000 ∧ fieldNNN w ≠ 0x0E0 ∧ fieldNNN w ≠ 0x0EE) ∨
    (fieldOp w = 0x8 ∧ fieldN w ∈ [0x8#4, 0x9#4, 0xA#4, 0xB#4, 0xC#4, 0xD#4, 0xF#4]) ∨
    (fieldOp w = 0xE ∧ fieldNN w ≠ 0x9E ∧ fieldNN w ≠ 0xA1) ∨
    (fieldOp w = 0xF ∧ fieldNN w ∉ [0x07#8, 0x0A#8, 0x15#8, 0x18#8, 0x1E#8, 0x29#8, 0x33#8, 0x55#8, 0x65#8])

/-- Words written out in the spec, of every family, decode to the instructions they stand for, and an illegal one to nothing. (95_test_vectors.md sections 2 and 3) -/
def Obligations.WordsOfTheSpecDecode : Prop :=
  decodeWord 0x0000 = some .idle ∧ decodeWord 0x00E0 = some .cls ∧ decodeWord 0x00EE = some .ret ∧
  decodeWord 0x1204 = some (.jp 0x204) ∧ decodeWord 0x220E = some (.call 0x20E) ∧ decodeWord 0x3A42 = some (.sei 10 0x42) ∧
  decodeWord 0x4A42 = some (.snei 10 0x42) ∧ decodeWord 0x512F = some (.ser 1 2) ∧ decodeWord 0x600A = some (.ldi 0 10) ∧
  decodeWord 0x70FF = some (.addi 0 0xFF) ∧ decodeWord 0x8014 = some (.add 0 1) ∧ decodeWord 0x812E = some (.shl 1) ∧
  decodeWord 0x9120 = some (.sner 1 2) ∧ decodeWord 0xA300 = some (.lda 0x300) ∧ decodeWord 0xBFFF = some (.jpv0 0xFFF) ∧
  decodeWord 0xC10F = some (.rnd 1 0x0F) ∧ decodeWord 0xD012 = some (.drw 0 1 2) ∧ decodeWord 0xE19E = some (.skp 1) ∧
  decodeWord 0xE1A1 = some (.sknp 1) ∧ decodeWord 0xF30A = some (.wkey 3) ∧ decodeWord 0xF31E = some (.adda 3) ∧
  decodeWord 0xF265 = some (.ldm 2) ∧ decodeWord 0x8008 = none

/-- The fetched word is the byte at EA(pc) in the high half and the byte at EA(pc + 1) in the low half. (R41, R43, R45) -/
def Obligations.FetchIsTwoBytesHighByteFirst : Prop :=
  ∀ s : State, (fetchWord s).toNat =
    256 * (Memory.read s.mem (s.pc.toNat % Config.memSize)).toNat + (Memory.read s.mem ((s.pc.toNat + 1) % Config.memSize)).toNat

/-- With both gates open, a step is the execution of the instruction decoded from the bytes at pc. (R80, R83, R85) -/
def Obligations.StepRunsTheDecodedInstruction : Prop :=
  ∀ (s : State) (i : Instr) (rest : List Byte), s.fault = none → s.wait = false →
    decode (fetchBytes s ++ rest) = .ok (i, rest) → step s = exec i s

/-- With both gates open, a step on an illegal word records InvalidInstruction and changes nothing else; 0x0000 never raises it. (R171) -/
def Obligations.IllegalWordRaisesInvalidInstruction : Prop :=
  (∀ s : State, s.fault = none → s.wait = false → decodeWord (fetchWord s) = none →
    step s = .next { s with fault := some { kind := .invalidInstruction, word := fetchWord s, offset := s.pc - Config.programOffset } }) ∧
  decodeWord 0x0000 = some .idle

/-- Every step and every instruction answers a next state: no stop and no refusal, whatever the state. That a fault of the spec is the outcome `next` with `FAULT` written, and so no stop, is the model's reading (DEDUCED, log 12); R80 and R176 give the step and the fault entry it reads. (R80, R176) -/
def Obligations.StepAndExecAlwaysAnswerANextState : Prop :=
  (∀ s : State, ∃ t, step s = .next t) ∧ (∀ (i : Instr) (s : State), ∃ t, exec i s = .next t)

/-- A step records a fault exactly under the listed conditions, with the fetched word and offset, and changes nothing else. (R170, R171, R172, R173, R174, R175, R176, R178) -/
def Obligations.FaultsArePreciseAndExact : Prop :=
  ∀ s t : State, step s = .next t →
    (t.fault ≠ s.fault ↔ s.fault = none ∧ s.wait = false ∧
      (decodeWord (fetchWord s) = none ∨ ((∃ nnn, decodeWord (fetchWord s) = some (.call nnn)) ∧ s.sp.val = 16) ∨
        (decodeWord (fetchWord s) = some .ret ∧ s.sp.val = 0) ∨
        ∃ x, (decodeWord (fetchWord s) = some (.skp x) ∨ decodeWord (fetchWord s) = some (.sknp x)) ∧ 15 < (getV s x).toNat)) ∧
    (t.fault ≠ s.fault → ∃ k : FaultKind,
      t = { s with fault := some { kind := k, word := fetchWord s, offset := s.pc - Config.programOffset } } ∧
      (k = .invalidInstruction ↔ decodeWord (fetchWord s) = none) ∧
      (k = .stackOverflow ↔ ∃ nnn, decodeWord (fetchWord s) = some (.call nnn)) ∧
      (k = .stackUnderflow ↔ decodeWord (fetchWord s) = some .ret) ∧
      (k = .keyIndexRange ↔ ∃ x, decodeWord (fetchWord s) = some (.skp x) ∨ decodeWord (fetchWord s) = some (.sknp x)))

/-- pc after each instruction: plus 2, or plus 2 or 4 for a skip, unless the instruction sets pc itself. (R86, R87, R90) -/
def Obligations.DefaultAdvanceAndSkipAdvance : Prop :=
  ∀ (i : Instr) (s t : State), exec i s = .next t → setsPc i = false →
    (isSkip i = false → t.pc = s.pc + 2) ∧
    (isSkip i = true → t.pc = s.pc + 2 ∨ t.pc = s.pc + 4 ∨ (t.pc = s.pc ∧ t.fault.isSome = true ∧ mayFault i = true))

/-- The idle word changes nothing, and the machine stays on it through steps, ticks and key events. (R84) -/
def Obligations.IdleChangesNothingForEver : Prop :=
  decodeWord 0x0000 = some .idle ∧ (∀ s : State, exec .idle s = .next s) ∧
  ∀ s : State, EndedIdle s →
    step s = .next s ∧
    (∀ dt, EndedIdle (tickTimers dt s) ∧ (tickTimers dt s).pc = s.pc) ∧
    (∀ k, EndedIdle (keyDown k s) ∧ (keyDown k s).pc = s.pc) ∧
    (∀ k, EndedIdle (keyUp k s) ∧ (keyUp k s).pc = s.pc)

/-- A step changes nothing exactly when halted, suspended, idle, or at a jump to itself, `JPV0` included. The first four are the spec's own inference, "[derived: from rules R81, R82, R84 and 41_control_flow.md rule R101]"; it leaves the last out (log 30). (40_engine_step.md section on what ends a run, R107) -/
def Obligations.StationaryStatesAreExactlyThese : Prop :=
  ∀ s : State, step s = .next s ↔
    s.fault ≠ none ∨ s.wait = true ∨ fetchWord s = 0x0000 ∨
    (∃ nnn, decodeWord (fetchWord s) = some (.jp nnn) ∧ nnn.toNat = s.pc.toNat) ∨
    ∃ nnn, decodeWord (fetchWord s) = some (.jpv0 nnn) ∧ (getV s 0).toNat + nnn.toNat = s.pc.toNat

/-- RET pops the top entry into pc, or records StackUnderflow when none is held. (R100) -/
def Obligations.ReturnPopsOrUnderflows : Prop :=
  decodeWord 0x00EE = some .ret ∧
  (∀ (s : State) (h : 0 < s.sp.val), exec .ret s =
    .next { s with sp := ⟨s.sp.val - 1, by omega⟩, pc := s.stack[s.sp.val - 1]'(by omega) }) ∧
  (∀ s : State, s.sp.val = 0 → exec .ret s =
    .next { s with fault := some { kind := .stackUnderflow, word := 0x00EE, offset := s.pc - Config.programOffset } })

/-- JP sets pc to exactly the low 12 bits and changes nothing else. (R101) -/
def Obligations.JumpSetsOnlyPc : Prop :=
  ∀ (nnn : Imm12) (s : State), decodeWord (0x1#4 ++ nnn : Word) = some (.jp nnn) ∧
    ∃ t, exec (.jp nnn) s = .next t ∧ t = { s with pc := t.pc } ∧ t.pc.toNat = nnn.toNat

/-- CALL pushes pc + 2 and jumps, or records StackOverflow when 16 addresses are held. (R102) -/
def Obligations.CallPushesOrOverflows : Prop :=
  ∀ (nnn : Imm12) (s : State), decodeWord (0x2#4 ++ nnn : Word) = some (.call nnn) ∧
    (s.sp.val < 16 → ∃ t, exec (.call nnn) s = .next t ∧ t = { s with pc := t.pc, sp := t.sp, stack := t.stack } ∧
      t.pc.toNat = nnn.toNat ∧ t.sp.val = s.sp.val + 1 ∧
      ∀ k (h : k < 16), (t.stack[k]).toNat = if k = s.sp.val then (s.pc.toNat + 2) % 65536 else (s.stack[k]).toNat) ∧
    (s.sp.val = 16 → exec (.call nnn) s =
      .next { s with fault := some { kind := .stackOverflow, word := 0x2#4 ++ nnn, offset := s.pc - Config.programOffset } })

/-- SEI and SNEI advance pc by 4 when their comparison holds and by 2 otherwise, and change nothing else. (R103, R104) -/
def Obligations.ImmediateSkips : Prop :=
  ∀ (x : RegIdx) (nn : Byte) (s : State),
    decodeWord (0x3#4 ++ regBits x ++ nn : Word) = some (.sei x nn) ∧
    decodeWord (0x4#4 ++ regBits x ++ nn : Word) = some (.snei x nn) ∧
    exec (.sei x nn) s = .next { s with pc := if getV s x = nn then s.pc + 4 else s.pc + 2 } ∧
    exec (.snei x nn) s = .next { s with pc := if getV s x = nn then s.pc + 2 else s.pc + 4 }

/-- SER and SNER, whatever the low nibble, advance pc by 4 when their comparison holds and by 2 otherwise. (R105, R106) -/
def Obligations.RegisterSkips : Prop :=
  ∀ (x y : RegIdx) (n : Nibble) (s : State),
    decodeWord (0x5#4 ++ regBits x ++ regBits y ++ n : Word) = some (.ser x y) ∧
    decodeWord (0x9#4 ++ regBits x ++ regBits y ++ n : Word) = some (.sner x y) ∧
    exec (.ser x y) s = .next { s with pc := if getV s x = getV s y then s.pc + 4 else s.pc + 2 } ∧
    exec (.sner x y) s = .next { s with pc := if getV s x = getV s y then s.pc + 2 else s.pc + 4 }

/-- JPV0 sets pc to V[0] + nnn, without reduction, and changes nothing else. (R107) -/
def Obligations.JumpWithOffsetAddsV0 : Prop :=
  ∀ (nnn : Imm12) (s : State), decodeWord (0xB#4 ++ nnn : Word) = some (.jpv0 nnn) ∧
    ∃ t, exec (.jpv0 nnn) s = .next t ∧ t = { s with pc := t.pc } ∧ t.pc.toNat = (getV s 0).toNat + nnn.toNat ∧
      t.pc.toNat ≤ 0x10FE

/-- LDI writes nn to V[x]; ADDI adds nn modulo 256 and touches no flag. (R120, R121) -/
def Obligations.LoadImmediateAndAddImmediate : Prop :=
  ∀ (x : RegIdx) (nn : Byte) (s : State),
    decodeWord (0x6#4 ++ regBits x ++ nn : Word) = some (.ldi x nn) ∧
    decodeWord (0x7#4 ++ regBits x ++ nn : Word) = some (.addi x nn) ∧
    (∃ t, exec (.ldi x nn) s = .next t ∧ t = { s with v := t.v, pc := s.pc + 2 } ∧
      ∀ k, getV t k = if k = x then nn else getV s k) ∧
    (∃ t, exec (.addi x nn) s = .next t ∧ t = { s with v := t.v, pc := s.pc + 2 } ∧
      ∀ k, (getV t k).toNat = if k = x then ((getV s x).toNat + nn.toNat) % 256 else (getV s k).toNat)

/-- MOV, OR, AND and XOR write V[x] bit by bit and touch no other register, VF included. (R122, R123, R124, R125) -/
def Obligations.CopyAndLogicTouchNoFlag : Prop :=
  ∀ (x y : RegIdx) (s : State),
    decodeWord (0x8#4 ++ regBits x ++ regBits y ++ 0x0#4 : Word) = some (.mov x y) ∧
    decodeWord (0x8#4 ++ regBits x ++ regBits y ++ 0x1#4 : Word) = some (.or x y) ∧
    decodeWord (0x8#4 ++ regBits x ++ regBits y ++ 0x2#4 : Word) = some (.and x y) ∧
    decodeWord (0x8#4 ++ regBits x ++ regBits y ++ 0x3#4 : Word) = some (.xor x y) ∧
    (∃ t, exec (.mov x y) s = .next t ∧ t = { s with v := t.v, pc := s.pc + 2 } ∧ (∀ k, k ≠ x → getV t k = getV s k) ∧
      ∀ b, (getV t x).getLsbD b = (getV s y).getLsbD b) ∧
    (∃ t, exec (.or x y) s = .next t ∧ t = { s with v := t.v, pc := s.pc + 2 } ∧ (∀ k, k ≠ x → getV t k = getV s k) ∧
      ∀ b, (getV t x).getLsbD b = ((getV s x).getLsbD b || (getV s y).getLsbD b)) ∧
    (∃ t, exec (.and x y) s = .next t ∧ t = { s with v := t.v, pc := s.pc + 2 } ∧ (∀ k, k ≠ x → getV t k = getV s k) ∧
      ∀ b, (getV t x).getLsbD b = ((getV s x).getLsbD b && (getV s y).getLsbD b)) ∧
    (∃ t, exec (.xor x y) s = .next t ∧ t = { s with v := t.v, pc := s.pc + 2 } ∧ (∀ k, k ≠ x → getV t k = getV s k) ∧
      ∀ b, (getV t x).getLsbD b = ((getV s x).getLsbD b ^^ (getV s y).getLsbD b))

/-- ADD leaves the sum modulo 256 in V[x] and the carry of the old operands in VF, the flag last when x = 15. (R126) -/
def Obligations.AddWritesSumThenCarry : Prop :=
  ∀ (x y : RegIdx) (s : State), decodeWord (0x8#4 ++ regBits x ++ regBits y ++ 0x4#4 : Word) = some (.add x y) ∧
    ∃ t, exec (.add x y) s = .next t ∧ t = { s with v := t.v, pc := s.pc + 2 } ∧
      (getV t 15).toNat = (if 255 < (getV s x).toNat + (getV s y).toNat then 1 else 0) ∧
      (x ≠ 15 → (getV t x).toNat = ((getV s x).toNat + (getV s y).toNat) % 256) ∧
      (∀ k, k ≠ x → k ≠ 15 → getV t k = getV s k)

/-- SUB and SUB7 both leave V[x] - V[y] modulo 256 in V[x] and 1 in VF exactly on borrow. (R127, R129) -/
def Obligations.SubtractWritesDifferenceThenBorrow : Prop :=
  ∀ (x y : RegIdx) (s : State),
    decodeWord (0x8#4 ++ regBits x ++ regBits y ++ 0x5#4 : Word) = some (.sub x y) ∧
    decodeWord (0x8#4 ++ regBits x ++ regBits y ++ 0x7#4 : Word) = some (.sub7 x y) ∧
    ∃ t, exec (.sub x y) s = .next t ∧ exec (.sub7 x y) s = .next t ∧ t = { s with v := t.v, pc := s.pc + 2 } ∧
      (getV t 15).toNat = (if (getV s x).toNat < (getV s y).toNat then 1 else 0) ∧
      (x ≠ 15 → (getV t x).toNat = ((getV s x).toNat + 256 - (getV s y).toNat) % 256) ∧
      (∀ k, k ≠ x → k ≠ 15 → getV t k = getV s k)

/-- SHR and SHL (42_alu.md): the flag first, then the shift. The clauses for x = 15 rest on the spec's own inference, "[derived: sequential reading of the order the document writes; see 92_eei_decisions.md D12]". (42_alu.md (SHR, SHL), 92_eei_decisions.md D12) -/
def Obligations.ShiftsWriteLowBitThenShift : Prop :=
  ∀ (x y : RegIdx) (s : State),
    decodeWord (0x8#4 ++ regBits x ++ regBits y ++ 0x6#4 : Word) = some (.shr x) ∧
    decodeWord (0x8#4 ++ regBits x ++ regBits y ++ 0xE#4 : Word) = some (.shl x) ∧
    (∃ t, exec (.shr x) s = .next t ∧ t = { s with v := t.v, pc := s.pc + 2 } ∧ (∀ k, k ≠ x → k ≠ 15 → getV t k = getV s k) ∧
      if x = 15 then getV t 15 = 0
      else (getV t 15).toNat = (getV s x).toNat % 2 ∧ (getV t x).toNat = (getV s x).toNat / 2) ∧
    (∃ t, exec (.shl x) s = .next t ∧ t = { s with v := t.v, pc := s.pc + 2 } ∧ (∀ k, k ≠ x → k ≠ 15 → getV t k = getV s k) ∧
      if x = 15 then (getV t 15).toNat = 2 * ((getV s 15).toNat % 2)
      else (getV t 15).toNat = (getV s x).toNat % 2 ∧ (getV t x).toNat = 2 * (getV s x).toNat % 256)

/-- RND (42_alu.md): "a fresh unsigned 8-bit input, unconstrained". The draw counter and the free byte `Config.rnd` are the model's own form of that input (DESIGN CHOICE, log 1); the statement holds for every value of both. (42_alu.md (RND), 60_exceptions.md (random input)) -/
def Obligations.RandomIsAFreshByteMasked : Prop :=
  ∀ (x : RegIdx) (nn : Byte) (s : State), decodeWord (0xC#4 ++ regBits x ++ nn : Word) = some (.rnd x nn) ∧
    ∃ t, exec (.rnd x nn) s = .next t ∧ t = { s with v := t.v, pc := s.pc + 2, draws := s.draws + 1 } ∧
      (∀ b, (getV t x).getLsbD b = if nn.getLsbD b then (Config.rnd s.draws).getLsbD b else false) ∧
      (∀ k, k ≠ x → getV t k = getV s k)

/-- LDA leaves nnn in I, FONT leaves 5 times the whole byte V[x] in I, and both change nothing else. (R140, R142) -/
def Obligations.LoadAddressAndFontAddress : Prop :=
  (∀ (nnn : Imm12) (s : State), decodeWord (0xA#4 ++ nnn : Word) = some (.lda nnn) ∧
    ∃ t, exec (.lda nnn) s = .next t ∧ t = { s with i := t.i, pc := s.pc + 2 } ∧ t.i.toNat = nnn.toNat) ∧
  (∀ (x : RegIdx) (s : State), decodeWord (0xF#4 ++ regBits x ++ 0x29#8 : Word) = some (.font x) ∧
    ∃ t, exec (.font x) s = .next t ∧ t = { s with i := t.i, pc := s.pc + 2 } ∧ t.i.toNat = 5 * (getV s x).toNat)

/-- ADDA (43_index_memory.md). The wrap at 65536 rests on the spec's own inference, "[derived: from 10_state.md rule R12, ...]". (43_index_memory.md (ADDA)) -/
def Obligations.AddToAddressRegisterWrapsAt65536 : Prop :=
  ∀ (x : RegIdx) (s : State), decodeWord (0xF#4 ++ regBits x ++ 0x1E#8 : Word) = some (.adda x) ∧
    ∃ t, exec (.adda x) s = .next t ∧ t = { s with i := t.i, pc := s.pc + 2 } ∧
      t.i.toNat = (s.i.toNat + (getV s x).toNat) % 65536

/-- BCD (43_index_memory.md). The digit order rests on the spec's own inference, "[derived: \"hundreds/tens/units\" paired in order with the address range]". (43_index_memory.md (BCD), 20_memory.md) -/
def Obligations.DecimalDigitsAreStored : Prop :=
  ∀ (x : RegIdx) (s : State), decodeWord (0xF#4 ++ regBits x ++ 0x33#8 : Word) = some (.bcd x) ∧
    ∃ t, exec (.bcd x) s = .next t ∧ t = { s with mem := t.mem, pc := s.pc + 2 } ∧
      (memRead t (indexAddr s 0)).toNat = (getV s x).toNat / 100 ∧
      (memRead t (indexAddr s 1)).toNat = (getV s x).toNat / 10 % 10 ∧
      (memRead t (indexAddr s 2)).toNat = (getV s x).toNat % 10 ∧
      ∀ a, (∀ k < 3, ea a ≠ ea (indexAddr s k)) → memRead t a = memRead s a

/-- STM stores V[0] to V[x] at EA(I) to EA(I + x), and every other byte, I and the registers are unchanged. (R144) -/
def Obligations.StoreRegistersWritesExactlyTheBlock : Prop :=
  ∀ (x : RegIdx) (s : State), decodeWord (0xF#4 ++ regBits x ++ 0x55#8 : Word) = some (.stm x) ∧
    ∃ t, exec (.stm x) s = .next t ∧ t = { s with mem := t.mem, pc := s.pc + 2 } ∧
      (∀ k, k ≤ x → memRead t (indexAddr s k.val) = getV s k) ∧
      ∀ a, (∀ k, k ≤ x → ea a ≠ ea (indexAddr s k.val)) → memRead t a = memRead s a

/-- LDM loads V[0] to V[x] from EA(I) to EA(I + x), leaves the rest alone, and undoes an STM with the same x and I. (R145) -/
def Obligations.LoadRegistersReadsTheBlock : Prop :=
  ∀ (x : RegIdx) (s : State), decodeWord (0xF#4 ++ regBits x ++ 0x65#8 : Word) = some (.ldm x) ∧
    (∃ t, exec (.ldm x) s = .next t ∧ t = { s with v := t.v, pc := s.pc + 2 } ∧
      ∀ k, getV t k = if k ≤ x then memRead s (indexAddr s k.val) else getV s k) ∧
    ∀ (t u : State) (v : Vector Byte 16), exec (.stm x) s = .next t → exec (.ldm x) { t with v := v } = .next u →
      ∀ k, k ≤ x → getV u k = getV s k

/-- CLS turns every pixel off and changes nothing else, VF included. (R150) -/
def Obligations.ClearScreenClearsEveryPixel : Prop :=
  decodeWord 0x00E0 = some .cls ∧ ∀ s : State, ∃ t, exec .cls s = .next t ∧ t = { s with fb := t.fb, pc := s.pc + 2 } ∧
    ∀ r c, getPixel t.fb r c = false

/-- DRW XORs each sprite bit into its wrapped pixel, touches no other pixel, and sets VF to 1 exactly on a collision. (R151, R152) -/
def Obligations.DrawXorsTheSpriteAndFlagsCollision : Prop :=
  ∀ (x y : RegIdx) (n : Nibble) (s : State),
    decodeWord (0xD#4 ++ regBits x ++ regBits y ++ n : Word) = some (.drw x y n) ∧
    ∃ t, exec (.drw x y n) s = .next t ∧ t = { s with fb := t.fb, v := t.v, pc := s.pc + 2 } ∧
      (∀ (row : Fin 32) (col : Fin 64) (r j : Nat), r < n.toNat → j < 8 →
        row.val = ((getV s y).toNat + r) % 32 → col.val = ((getV s x).toNat + j) % 64 →
        getPixel t.fb row col = (getPixel s.fb row col ^^ (memRead s (indexAddr s r)).getLsbD (7 - j))) ∧
      (∀ (row : Fin 32) (col : Fin 64),
        (∀ r j : Nat, r < n.toNat → j < 8 →
          ¬ (row.val = ((getV s y).toNat + r) % 32 ∧ col.val = ((getV s x).toNat + j) % 64)) →
        getPixel t.fb row col = getPixel s.fb row col) ∧
      (∀ k, k ≠ 15 → getV t k = getV s k) ∧ (getV t 15 = 0 ∨ getV t 15 = 1) ∧
      (getV t 15 = 1 ↔ ∃ (r j : Nat) (row : Fin 32) (col : Fin 64), r < n.toNat ∧ j < 8 ∧
        row.val = ((getV s y).toNat + r) % 32 ∧ col.val = ((getV s x).toNat + j) % 64 ∧
        (memRead s (indexAddr s r)).getLsbD (7 - j) = true ∧ getPixel s.fb row col = true)

/-- The compositor is its own inverse (44_display.md, E4). The clause about `VF` rests on the spec's own inference, "[derived: after the first draw a pixel under a source bit 1 that was off is on, ...]". (44_display.md section on properties of the compositor, 95_test_vectors.md E4) -/
def Obligations.DrawTwiceRestoresTheScreen : Prop :=
  ∀ (x y : RegIdx) (n : Nibble) (s t u : State), x ≠ 15 → y ≠ 15 →
    exec (.drw x y n) s = .next t → exec (.drw x y n) t = .next u →
    u.fb = s.fb ∧ (getV u 15 = 1 ↔ ∃ r c, getPixel s.fb r c = false ∧ getPixel t.fb r c = true)

/-- CLS followed by a draw of all-zero sprite bytes leaves every pixel off and VF = 0. (44_display.md section on properties of the compositor, 95_test_vectors.md E10) -/
def Obligations.ClearThenEmptySpriteLeavesScreenOff : Prop :=
  ∀ (x y : RegIdx) (n : Nibble) (s t u : State), (∀ r < n.toNat, memRead s (indexAddr s r) = 0) →
    exec .cls s = .next t → exec (.drw x y n) t = .next u →
    (∀ r c, getPixel u.fb r c = false) ∧ getV u 15 = 0

/-- GDT copies DT to V[x]; SDT and SST copy V[x] to DT and ST; nothing else changes. (45_timer_key.md (GDT, SDT, SST)) -/
def Obligations.TimerInstructionsCopyAByte : Prop :=
  ∀ (x : RegIdx) (s : State),
    decodeWord (0xF#4 ++ regBits x ++ 0x07#8 : Word) = some (.gdt x) ∧
    decodeWord (0xF#4 ++ regBits x ++ 0x15#8 : Word) = some (.sdt x) ∧
    decodeWord (0xF#4 ++ regBits x ++ 0x18#8 : Word) = some (.sst x) ∧
    (∃ t, exec (.gdt x) s = .next t ∧ t = { s with v := t.v, pc := s.pc + 2 } ∧ ∀ k, getV t k = if k = x then s.dt else getV s k) ∧
    exec (.sdt x) s = .next { s with dt := getV s x, pc := s.pc + 2 } ∧
    exec (.sst x) s = .next { s with st := getV s x, pc := s.pc + 2 }

/-- WKEY suspends with pc advanced; steps then change nothing until a key_down writes the code to V[x] and resumes. (R163) -/
def Obligations.WaitForKeySuspendsUntilKeyDown : Prop :=
  ∀ (x : RegIdx) (s : State), decodeWord (0xF#4 ++ regBits x ++ 0x0A#8 : Word) = some (.wkey x) ∧
    ∃ t, exec (.wkey x) s = .next t ∧ t = { s with wait := true, waitReg := x, pc := s.pc + 2 } ∧
      (∀ n, transactAll (List.replicate n .step) t = .next t) ∧
      (∀ dt, (tickTimers dt t).wait = true) ∧ (∀ k, (keyUp k t).wait = true) ∧
      (s.fault = none → ∀ k : KeyCode, (keyDown k t).wait = false ∧ (keyDown k t).pc = s.pc + 2 ∧
        getKey (keyDown k t) k = true ∧ (getV (keyDown k t) x).toNat = k.val ∧
        ∀ r, r ≠ x → getV (keyDown k t) r = getV s r)

/-- SKP and SKNP skip by the state of key V[x], or record KeyIndexRange when V[x] is above 15. (R164, R165) -/
def Obligations.KeySkipsTestTheKeyOrFault : Prop :=
  ∀ (x : RegIdx) (s : State),
    decodeWord (0xE#4 ++ regBits x ++ 0x9E#8 : Word) = some (.skp x) ∧
    decodeWord (0xE#4 ++ regBits x ++ 0xA1#8 : Word) = some (.sknp x) ∧
    (∀ k : KeyCode, (getV s x).toNat = k.val →
      exec (.skp x) s = .next { s with pc := if getKey s k = true then s.pc + 4 else s.pc + 2 } ∧
      exec (.sknp x) s = .next { s with pc := if getKey s k = true then s.pc + 2 else s.pc + 4 }) ∧
    (15 < (getV s x).toNat →
      exec (.skp x) s = .next { s with
        fault := some ⟨.keyIndexRange, 0xE#4 ++ regBits x ++ 0x9E#8, s.pc - Config.programOffset⟩ } ∧
      exec (.sknp x) s = .next { s with
        fault := some ⟨.keyIndexRange, 0xE#4 ++ regBits x ++ 0xA1#8, s.pc - Config.programOffset⟩ })

/-- Every instruction leaves unchanged every piece of state the access table does not list as written by it. The last clause is about the draw counter, which is the model's own and not the spec's (DESIGN CHOICE, log 1). (R29) -/
def Obligations.EachInstructionWritesOnlyWhatItsRowLists : Prop :=
  ∀ (i : Instr) (s t : State), exec i s = .next t →
    (∀ k, k ∉ destRegs i → (setsFlag i = false ∨ k ≠ 15) → getV t k = getV s k) ∧
    (writesIndex i = false → t.i = s.i) ∧
    (usesStack i = false → t.sp = s.sp ∧ t.stack = s.stack) ∧
    ((∀ x, i ≠ .sdt x) → t.dt = s.dt) ∧ ((∀ x, i ≠ .sst x) → t.st = s.st) ∧
    (writesScreen i = false → t.fb = s.fb) ∧ t.key = s.key ∧ t.tacc = s.tacc ∧
    ((∀ x, i ≠ .wkey x) → t.wait = s.wait ∧ t.waitReg = s.waitReg) ∧
    (mayFault i = false → t.fault = s.fault) ∧
    (∀ a, storesTo i s a = false → memRead t a = memRead s a) ∧
    ((∀ x nn, i ≠ .rnd x nn) → t.draws = s.draws)

/-- VF is written as a side effect by exactly ADD, SUB, SHR, SUB7, SHL and DRW, to 0 or 1. (R11) -/
def Obligations.ExactlySixInstructionsWriteTheFlag : Prop :=
  (∀ (i : Instr) (s t : State), exec i s = .next t → setsFlag i = false → 15 ∉ destRegs i → getV t 15 = getV s 15) ∧
  (∀ (i : Instr) (s t : State), exec i s = .next t → setsFlag i = true → 15 ∉ destRegs i → getV t 15 = 0 ∨ getV t 15 = 1)

/-- The state after reset meets the invariant: canonical memory, and less than an interval on the timer gate. (R30, R183) -/
def Obligations.InvariantHoldsAtReset : Prop :=
  Inv State.reset ∧ ∀ s : State, Inv (resetCore s)

/-- Every step keeps the invariant: memory stays canonical and inside MEM, the timer gate below an interval. (R21, R44, R183) -/
def Obligations.EveryStepKeepsTheInvariant : Prop :=
  ∀ s t : State, Inv s → step s = .next t → Inv t

/-- Every sequence of transactions keeps the invariant. (R8, R190) -/
def Obligations.EveryTransactionKeepsTheInvariant : Prop :=
  ∀ (ts : List Transaction) (s t : State), Inv s → transactAll ts s = .next t → Inv t

/-- No instruction's effect depends on the sound timer or the timer gate. For `RND` the two runs agree only by the model's choice that equal draw counts give the same byte (DESIGN CHOICE, log 13), against R189's free input of each step. (R16, R22) -/
def Obligations.SoundTimerAndGateAreNeverRead : Prop :=
  ∀ (i : Instr) (s t : State), exec i s = .next t →
    (∀ a : Nat, exec i { s with tacc := a } = .next { t with tacc := a }) ∧
    (∀ b : Byte, (∀ x, i ≠ .sst x) → exec i { s with st := b } = .next { t with st := b }) ∧
    (∀ b : Byte, ∀ x, i = .sst x → exec i { s with st := b } = .next t)

/-- Two states that differ only in dead stack entries step to states that differ only in dead stack entries. For `RND` the two runs agree only by the model's choice that equal draw counts give the same byte (DESIGN CHOICE, log 13), against R189's free input of each step. (R14) -/
def Obligations.DeadStackEntriesAreNeverRead : Prop :=
  ∀ s s' t : State, SameButDeadStack s s' → step s = .next t → ∃ t', step s' = .next t' ∧ SameButDeadStack t t'

/-- A RET right after a CALL comes back to the instruction after the CALL with the same depth. (R14, R100, R102) -/
def Obligations.ReturnAfterCallComesBack : Prop :=
  ∀ (nnn : Imm12) (s t u : State), s.sp.val < 16 → exec (.call nnn) s = .next t → exec .ret t = .next u →
    u = { s with pc := s.pc + 2, stack := u.stack } ∧ SameLiveStack s u

/-- Bytes stored by STM over the next instruction are the ones the next step fetches. (20_memory.md section 8 (instruction-fetch coherence)) -/
def Obligations.StoreIsSeenByTheNextFetch : Prop :=
  ∀ (x j k : RegIdx) (s t : State), exec (.stm x) s = .next t → j ≤ x → k ≤ x →
    ea t.pc.toNat = ea (indexAddr s j.val) → ea (t.pc.toNat + 1) = ea (indexAddr s k.val) →
    fetchWord t = getV s j ++ getV s k

/-- After the reset transaction, from any state, every piece of state has its reset value. (R210) -/
def Obligations.ResetLeavesTheListedState : Prop :=
  ∀ s : State, ∃ t, transact .reset s = .next t ∧ (∀ x, getV t x = 0) ∧ t.i = 0 ∧ t.pc = Config.programOffset ∧
    t.sp = 0 ∧ (∀ k (h : k < 16), t.stack[k] = 0) ∧ t.dt = 0 ∧ t.st = 0 ∧ (∀ r c, getPixel t.fb r c = false) ∧
    (∀ k, getKey t k = false) ∧ t.wait = false ∧ t.waitReg = 0 ∧ t.fault = none ∧ t.tacc = 0 ∧
    ∀ a (h : a < Config.memSize), memRead t a = if h : a < Config.fontSize then Config.params.font[a]'h else 0

/-- timer_decrement lowers each timer by 1 down to 0 and touches nothing else. (60_exceptions.md section 4 (timer_decrement)) -/
def Obligations.TimersCountDownAndStopAtZero : Prop :=
  ∀ s : State, timerDecrement s = { s with dt := (timerDecrement s).dt, st := (timerDecrement s).st } ∧
    (timerDecrement s).dt.toNat = s.dt.toNat - 1 ∧ (timerDecrement s).st.toNat = s.st.toNat - 1

/-- tick_timers adds the time to the gate and, when an interval is reached, decrements once and restarts the interval. (R182, R183) -/
def Obligations.TickGateOpensOncePerInterval : Prop :=
  ∀ (dt : Nat) (s : State),
    (s.fault = none → s.tacc + dt < Config.timerInterval → tickTimers dt s = { s with tacc := s.tacc + dt }) ∧
    (s.fault = none → Config.timerInterval ≤ s.tacc + dt →
      tickTimers dt s = { s with tacc := 0, dt := (tickTimers dt s).dt, st := (tickTimers dt s).st } ∧
      (tickTimers dt s).dt.toNat = s.dt.toNat - 1 ∧ (tickTimers dt s).st.toNat = s.st.toNat - 1) ∧
    (s.fault ≠ none → tickTimers dt s = s)

/-- Between timer writes, DT and ST never rise: every transaction but reset, SDT and SST leaves them or lowers them by 1. (R15, R184) -/
def Obligations.TimersFallOnlyByDecrements : Prop :=
  ∀ (tr : Transaction) (s t : State), transact tr s = .next t → tr ≠ .reset →
    (t.dt = s.dt ∨ t.dt.toNat + 1 = s.dt.toNat ∨ (tr = .step ∧ ∃ x, decodeWord (fetchWord s) = some (.sdt x))) ∧
    (t.st = s.st ∨ t.st.toNat + 1 = s.st.toNat ∨ (tr = .step ∧ ∃ x, decodeWord (fetchWord s) = some (.sst x)))

/-- key_down sets the key and, when suspended, writes the code to V[WAITREG] and clears WAIT; key_up only clears the key. (R185, R186) -/
def Obligations.KeyDownSetsTheKeyAndResumes : Prop :=
  ∀ (k : KeyCode) (s : State),
    (s.fault = none → s.wait = false → keyDown k s = { s with key := (keyDown k s).key }) ∧
    (s.fault = none → s.wait = true →
      keyDown k s = { s with key := (keyDown k s).key, v := (keyDown k s).v, wait := false } ∧
      ∀ r, (getV (keyDown k s) r).toNat = if r = s.waitReg then k.val else (getV s r).toNat) ∧
    (s.fault = none → ∀ q, getKey (keyDown k s) q = if q = k then true else getKey s q) ∧
    (s.fault = none → keyUp k s = { s with key := (keyUp k s).key } ∧
      ∀ q, getKey (keyUp k s) q = if q = k then false else getKey s q) ∧
    (s.fault ≠ none → keyDown k s = s ∧ keyUp k s = s)

/-- While WAIT = 1 a step changes nothing, and only key_down or reset ends the wait. (R82) -/
def Obligations.SuspendedUntilKeyDownOrReset : Prop :=
  ∀ s : State, s.wait = true →
    step s = .next s ∧
    (∀ (tr : Transaction) (t : State), transact tr s = .next t → t.wait = false → tr = .reset ∨ ∃ k, tr = .keyDown k) ∧
    (∀ dt, tickTimers dt s = { tickTimers dt { s with wait := false } with wait := true }) ∧
    (∀ k, keyUp k s = { keyUp k { s with wait := false } with wait := true })

/-- With FAULT set, no sequence of transactions without a reset changes anything; a reset clears it. (R81, R195) -/
def Obligations.HaltedUntilReset : Prop :=
  ∀ s : State, s.fault ≠ none →
    (∀ ts : List Transaction, .reset ∉ ts → transactAll ts s = .next s) ∧
    ∃ t, transact .reset s = .next t ∧ t.fault = none

/-- load writes exactly the image bytes from PROGRAM_OFFSET on, or reports LoadError and writes nothing. (R212) -/
def Obligations.LoadWritesTheImageOrNothing : Prop :=
  ∀ (bs : List Byte) (s : State),
    (s.fault = none → bs.length ≤ Config.memSize - Config.params.programOffset →
      loadError bs s = false ∧ load bs s = { s with mem := (load bs s).mem } ∧
      ∀ a, a < Config.memSize → memRead (load bs s) a =
        if Config.params.programOffset ≤ a ∧ a < Config.params.programOffset + bs.length
        then bs.getD (a - Config.params.programOffset) 0 else memRead s a) ∧
    (s.fault = none → Config.memSize - Config.params.programOffset < bs.length → loadError bs s = true ∧ load bs s = s) ∧
    (s.fault ≠ none → loadError bs s = false ∧ load bs s = s)

/-- Under the host contract nothing comes before reset, no step before an accepted load, no second load; the boot order runs. The refusals are those of `Safety.hostRun`, the model's form of the contract (DESIGN CHOICE, and DEDUCED for the step after a refused load: log 16). (R197, R213) -/
def Obligations.HostContractOrdersTheBoot : Prop :=
  (∀ (tr : Transaction) (ts : List Transaction) (s : State), tr ≠ .reset →
    hostRun .powerUp s (tr :: ts) = .refused .outsideHostContract) ∧
  (∀ (ts : List Transaction) (s : State), hostRun .fresh s (.step :: ts) = .refused .outsideHostContract ∧
    hostRun .refused s (.step :: ts) = .refused .outsideHostContract) ∧
  (∀ (bs : List Byte) (ts : List Transaction) (s : State), hostRun .loaded s (.load bs :: ts) = .refused .outsideHostContract) ∧
  (∀ (bs : List Byte) (s : State), bs.length ≤ Config.memSize - Config.params.programOffset →
    hostRun .powerUp s [.reset, .load bs, .step] = transactAll [.reset, .load bs, .step] s)

/-- The model's device for placing one instruction (DESIGN CHOICE, log 14): it is what the next step executes. (20_memory.md (byte order), 40_engine_step.md (fetch)) -/
def Obligations.PlacedInstructionIsTheOneExecuted : Prop :=
  ∀ (s : State) (w : Nat) (i : Instr), decodeTableWord 16 w = some i →
    step (s.withFetchWord 16 w) = exec i (s.withFetchWord 16 w) ∧
    s.withFetchWord 16 w = { s with mem := (s.withFetchWord 16 w).mem, fault := none, wait := false } ∧
    ∀ a, ea a ≠ ea s.pc.toNat → ea a ≠ ea (s.pc.toNat + 1) → memRead (s.withFetchWord 16 w) a = memRead s a
end

