-- ==== Sys2Proof/Laws/Decode.lean ====
section
/-! SUPPORT. The fields of an encoded word, format by format, and the bytes of a word. -/

namespace Sys2Proof.Laws

@[simp] theorem regBits_toFin (x : RegIdx) : (regBits x).toFin = x := rfl

@[simp] theorem fieldOp_encNNN (op : Nibble) (nnn : Imm12) : fieldOp (encNNN op nnn) = op := by
  apply BitVec.eq_of_getLsbD_eq; intro i hi
  simp only [fieldOp, encNNN, BitVec.getLsbD_extractLsb', BitVec.getLsbD_append]
  have : ¬ 12 + i < 12 := by omega
  simp [this]; omega

@[simp] theorem fieldNNN_encNNN (op : Nibble) (nnn : Imm12) : fieldNNN (encNNN op nnn) = nnn := by
  apply BitVec.eq_of_getLsbD_eq; intro i hi
  simp only [fieldNNN, encNNN, BitVec.getLsbD_extractLsb', BitVec.getLsbD_append]
  simp [hi]

@[simp] theorem fieldOp_encXNN (op : Nibble) (x : RegIdx) (nn : Byte) : fieldOp (encXNN op x nn) = op := by
  apply BitVec.eq_of_getLsbD_eq; intro i hi
  simp only [fieldOp, encXNN, BitVec.getLsbD_extractLsb', BitVec.getLsbD_append]
  have h1 : ¬ 12 + i < 8 := by omega
  have h2 : ¬ 12 + i - 8 < 4 := by omega
  have h3 : 12 + i - 8 - 4 = i := by omega
  simp [h1, h2, h3]; omega

@[simp] theorem fieldX_encXNN (op : Nibble) (x : RegIdx) (nn : Byte) : fieldX (encXNN op x nn) = x := by
  have h : (encXNN op x nn).extractLsb' 8 4 = regBits x := by
    apply BitVec.eq_of_getLsbD_eq; intro i hi
    simp only [encXNN, BitVec.getLsbD_extractLsb', BitVec.getLsbD_append]
    have h1 : ¬ 8 + i < 8 := by omega
    have h2 : 8 + i - 8 < 4 := by omega
    have h3 : 8 + i - 8 = i := by omega
    simp [hi]
  rw [fieldX, h]; rfl

@[simp] theorem fieldNN_encXNN (op : Nibble) (x : RegIdx) (nn : Byte) : fieldNN (encXNN op x nn) = nn := by
  apply BitVec.eq_of_getLsbD_eq; intro i hi
  simp only [fieldNN, encXNN, BitVec.getLsbD_extractLsb', BitVec.getLsbD_append]
  simp [hi]

@[simp] theorem fieldOp_encXYN (op : Nibble) (x y : RegIdx) (n : Nibble) : fieldOp (encXYN op x y n) = op := by
  apply BitVec.eq_of_getLsbD_eq; intro i hi
  simp only [fieldOp, encXYN, BitVec.getLsbD_extractLsb', BitVec.getLsbD_append]
  have h1 : ¬ 12 + i < 4 := by omega
  have h2 : ¬ 12 + i - 4 < 4 := by omega
  have h3 : ¬ 12 + i - 4 - 4 < 4 := by omega
  have h4 : 12 + i - 4 - 4 - 4 = i := by omega
  simp [h1, h2, h3, h4]; omega

@[simp] theorem fieldX_encXYN (op : Nibble) (x y : RegIdx) (n : Nibble) : fieldX (encXYN op x y n) = x := by
  have h : (encXYN op x y n).extractLsb' 8 4 = regBits x := by
    apply BitVec.eq_of_getLsbD_eq; intro i hi
    simp only [encXYN, BitVec.getLsbD_extractLsb', BitVec.getLsbD_append]
    have h1 : ¬ 8 + i < 4 := by omega
    have h2 : ¬ 8 + i - 4 < 4 := by omega
    have h3 : 8 + i - 4 - 4 = i := by omega
    simp [h1, h2, h3, hi]
  rw [fieldX, h]; rfl

@[simp] theorem fieldY_encXYN (op : Nibble) (x y : RegIdx) (n : Nibble) : fieldY (encXYN op x y n) = y := by
  have h : (encXYN op x y n).extractLsb' 4 4 = regBits y := by
    apply BitVec.eq_of_getLsbD_eq; intro i hi
    simp only [encXYN, BitVec.getLsbD_extractLsb', BitVec.getLsbD_append]
    have h1 : ¬ 4 + i < 4 := by omega
    have h3 : 4 + i - 4 = i := by omega
    simp [hi]
  rw [fieldY, h]; rfl

@[simp] theorem fieldN_encXYN (op : Nibble) (x y : RegIdx) (n : Nibble) : fieldN (encXYN op x y n) = n := by
  apply BitVec.eq_of_getLsbD_eq; intro i hi
  simp only [fieldN, encXYN, BitVec.getLsbD_extractLsb', BitVec.getLsbD_append]
  simp [hi]

/-- The two bytes of a word, put together again, are the word (R43, R45). -/
@[simp] theorem wordOfBytes_bytes (w : Word) : wordOfBytes (highByte w) (lowByte w) = w := by
  apply BitVec.eq_of_getLsbD_eq; intro i hi
  simp only [wordOfBytes, highByte, lowByte, BitVec.getLsbD_append, BitVec.getLsbD_extractLsb']
  by_cases h : i < 8
  · simp [h, hi]
  · have : 8 + (i - 8) = i := by omega
    simp [h, hi, this]; omega

@[simp] theorem highByte_wordOfBytes (hi lo : Byte) : highByte (wordOfBytes hi lo) = hi := by
  apply BitVec.eq_of_getLsbD_eq; intro i h
  simp only [wordOfBytes, highByte, BitVec.getLsbD_extractLsb', BitVec.getLsbD_append]
  have h1 : ¬ 8 + i < 8 := by omega
  simp [h1]; omega

@[simp] theorem lowByte_wordOfBytes (hi lo : Byte) : lowByte (wordOfBytes hi lo) = lo := by
  apply BitVec.eq_of_getLsbD_eq; intro i h
  simp only [wordOfBytes, lowByte, BitVec.getLsbD_extractLsb', BitVec.getLsbD_append]
  simp [h]

/-! ### Words by their fields -/

/-- A word is its family digit and the rest. -/
theorem word_eq_encNNN (w : Word) : w = encNNN (fieldOp w) (fieldNNN w) := by
  apply BitVec.eq_of_getLsbD_eq; intro i hi
  simp only [encNNN, fieldOp, fieldNNN, BitVec.getLsbD_append, BitVec.getLsbD_extractLsb']
  by_cases h : i < 12
  · simp [h, hi]
  · have : 12 + (i - 12) = i := by omega
    simp [h, hi, this]; omega

/-- A word is its family digit, a register and a byte. -/
theorem word_eq_encXNN (w : Word) : w = encXNN (fieldOp w) (fieldX w) (fieldNN w) := by
  apply BitVec.eq_of_getLsbD_eq; intro i hi
  have hx : regBits (fieldX w) = w.extractLsb' 8 4 := rfl
  simp only [encXNN, hx, fieldOp, fieldNN, BitVec.getLsbD_append, BitVec.getLsbD_extractLsb']
  by_cases h : i < 8
  · simp [h, hi]
  · by_cases h' : i - 8 < 4
    · have : 8 + (i - 8) = i := by omega
      simp [h, h', hi, this]
    · have : 12 + (i - 8 - 4) = i := by omega
      simp [h, h', hi, this]; omega

/-- A word is four hex digits. -/
theorem word_eq_encXYN (w : Word) : w = encXYN (fieldOp w) (fieldX w) (fieldY w) (fieldN w) := by
  apply BitVec.eq_of_getLsbD_eq; intro i hi
  have hx : regBits (fieldX w) = w.extractLsb' 8 4 := rfl
  have hy : regBits (fieldY w) = w.extractLsb' 4 4 := rfl
  simp only [encXYN, hx, hy, fieldOp, fieldN, BitVec.getLsbD_append, BitVec.getLsbD_extractLsb']
  by_cases h : i < 4
  · simp [h, hi]
  · by_cases h' : i - 4 < 4
    · have : 4 + (i - 4) = i := by omega
      simp [h, h', hi, this]
    · by_cases h'' : i - 4 - 4 < 4
      · have : 8 + (i - 4 - 4) = i := by omega
        simp [h, h', h'', hi, this]
      · have : 12 + (i - 4 - 4 - 4) = i := by omega
        simp [h, h', h'', hi, this]; omega

end Sys2Proof.Laws
end

