-- ==== Sys2Proof/Laws/Memory.lean ====
section
/-! SUPPORT. The laws of the memory list: read after write, the canonical form is kept, and canonical memories that read
alike are equal. -/

namespace Sys2Proof.Laws

open Sys2Proof.Machine

theorem find_filter_same (m : Mem) (a : Nat) : Memory.find (m.filter (fun c => c.1 ≠ a)) a = none := by
  induction m with
  | nil => rfl
  | cons c m ih =>
    by_cases h : c.1 = a
    · rw [List.filter_cons_of_neg (by simpa using h)]; exact ih
    · rw [List.filter_cons_of_pos (by simpa using h)]
      simp only [Memory.find, if_neg h]; exact ih

theorem find_filter_other (m : Mem) {a a' : Nat} (h : a' ≠ a) :
    Memory.find (m.filter (fun c => c.1 ≠ a)) a' = Memory.find m a' := by
  induction m with
  | nil => rfl
  | cons c m ih =>
    by_cases hc : c.1 = a
    · rw [List.filter_cons_of_neg (by simpa using hc), ih]
      have : c.1 ≠ a' := fun e => h (e.symm.trans hc)
      simp only [Memory.find, if_neg this]
    · rw [List.filter_cons_of_pos (by simpa using hc)]
      simp only [Memory.find, ih]

theorem find_insert_other (a : Nat) (b : Byte) (m : Mem) {a' : Nat} (h : a' ≠ a) :
    Memory.find (Memory.insert a b m) a' = Memory.find m a' := by
  induction m with
  | nil => simp [Memory.insert, Memory.find, Ne.symm h]
  | cons c m ih =>
    simp only [Memory.insert]
    split
    · simp [Memory.find, Ne.symm h]
    · simp only [Memory.find, ih]

theorem find_insert_same (a : Nat) (b : Byte) (m : Mem) (h : Memory.find m a = none) :
    Memory.find (Memory.insert a b m) a = some b := by
  induction m with
  | nil => simp [Memory.insert, Memory.find]
  | cons c m ih =>
    simp only [Memory.find] at h
    split at h
    · cases h
    · rename_i hc
      simp only [Memory.insert]
      split
      · simp [Memory.find]
      · simp only [Memory.find, if_neg hc]; exact ih h

/-- The byte written is the byte read (R44). -/
theorem read_write_same (m : Mem) (a : Nat) (b : Byte) : Memory.read (Memory.write m a b) a = b := by
  unfold Memory.read Memory.write
  by_cases h : b = Memory.unlisted a
  · simp only [if_pos h, find_filter_same]; exact h.symm
  · simp only [if_neg h, find_insert_same _ _ _ (find_filter_same m a)]; rfl

/-- Every other byte keeps its value. -/
theorem read_write_other (m : Mem) (a : Nat) (b : Byte) {a' : Nat} (h : a' ≠ a) :
    Memory.read (Memory.write m a b) a' = Memory.read m a' := by
  unfold Memory.read Memory.write
  by_cases hb : b = Memory.unlisted a
  · simp only [if_pos hb, find_filter_other m h]
  · simp only [if_neg hb, find_insert_other _ _ _ h, find_filter_other m h]

@[simp] theorem read_write (m : Mem) (a a' : Nat) (b : Byte) :
    Memory.read (Memory.write m a b) a' = if a' = a then b else Memory.read m a' := by
  split
  · next h => rw [h, read_write_same]
  · next h => exact read_write_other m a b h

theorem mem_insert (a : Nat) (b : Byte) (m : Mem) (c : Host.Cell) :
    c ∈ Memory.insert a b m ↔ c = (a, b) ∨ c ∈ m := by
  induction m with
  | nil => simp [Memory.insert]
  | cons d m ih =>
    simp only [Memory.insert]
    split
    · simp
    · simp only [List.mem_cons, ih]; tauto

theorem pairwise_insert (a : Nat) (b : Byte) (m : Mem) (hm : m.Pairwise (fun c d => c.1 < d.1)) (ha : ∀ c ∈ m, c.1 ≠ a) :
    (Memory.insert a b m).Pairwise (fun c d => c.1 < d.1) := by
  induction m with
  | nil => simp [Memory.insert]
  | cons d m ih =>
    rw [List.pairwise_cons] at hm
    have hd : d.1 ≠ a := ha d (by simp)
    simp only [Memory.insert]
    split
    · rename_i hlt
      refine List.pairwise_cons.2 ⟨fun c hc => ?_, List.pairwise_cons.2 hm⟩
      rcases List.mem_cons.1 hc with rfl | hc
      · exact hlt
      · exact Nat.lt_trans hlt (hm.1 c hc)
    · rename_i hlt
      refine List.pairwise_cons.2 ⟨fun c hc => ?_, ih hm.2 (fun c hc => ha c (by simp [hc]))⟩
      rcases (mem_insert a b m c).1 hc with rfl | hc
      · show d.1 < a; omega
      · exact hm.1 c hc

/-- A write keeps the canonical form. -/
theorem wf_write (m : Mem) (a : Nat) (b : Byte) (ha : a < Config.memSize) (hm : Memory.wf m) :
    Memory.wf (Memory.write m a b) := by
  have hrest : Memory.wf (m.filter (fun c => c.1 ≠ a)) :=
    ⟨hm.1.filter _, fun c hc => hm.2 c (List.mem_filter.1 hc).1⟩
  unfold Memory.write
  by_cases hb : b = Memory.unlisted a
  · simp only [if_pos hb]; exact hrest
  · simp only [if_neg hb]
    refine ⟨pairwise_insert a b _ hrest.1 (fun c hc => by simpa using (List.mem_filter.1 hc).2), fun c hc => ?_⟩
    rcases (mem_insert a b _ c).1 hc with rfl | hc
    · exact ⟨ha, hb⟩
    · exact hrest.2 c hc

theorem wf_nil : Memory.wf [] := by simp [Memory.wf]

theorem find_none_of_lt (m : Mem) (a : Nat) (h : ∀ c ∈ m, a < c.1) : Memory.find m a = none := by
  induction m with
  | nil => rfl
  | cons c m ih =>
    have : c.1 ≠ a := Nat.ne_of_gt (h c (by simp))
    simp only [Memory.find, if_neg this]
    exact ih (fun d hd => h d (by simp [hd]))

/-- The listed byte at the head of a canonical memory is not what the address reads as unlisted. -/
theorem read_head_ne (c : Host.Cell) (m : Mem) (h : Memory.wf (c :: m)) :
    Memory.read (c :: m) c.1 ≠ Memory.unlisted c.1 := by
  simpa [Memory.read, Memory.find] using (h.2 c (by simp)).2

theorem wf_tail {c : Host.Cell} {m : Mem} (h : Memory.wf (c :: m)) : Memory.wf m :=
  ⟨(List.pairwise_cons.1 h.1).2, fun d hd => h.2 d (by simp [hd])⟩

theorem read_unlisted_of_lt (m : Mem) (a : Nat) (h : ∀ c ∈ m, a < c.1) : Memory.read m a = Memory.unlisted a := by
  simp [Memory.read, find_none_of_lt m a h]

/-- Canonical memories that read alike are the same list. -/
theorem memory_ext (m m' : Mem) (h : Memory.wf m) (h' : Memory.wf m') (hr : ∀ a, Memory.read m a = Memory.read m' a) :
    m = m' := by
  induction m generalizing m' with
  | nil =>
    cases m' with
    | nil => rfl
    | cons d m' => exact absurd (hr d.1).symm (read_head_ne d m' h')
  | cons c m ih =>
    cases m' with
    | nil => exact absurd (hr c.1) (read_head_ne c m h)
    | cons d m' =>
      have hc := (List.pairwise_cons.1 h.1).1
      have hd := (List.pairwise_cons.1 h'.1).1
      have hcd : c.1 = d.1 := by
        rcases Nat.lt_trichotomy c.1 d.1 with lt | eq | gt
        · refine absurd ((hr c.1).trans (read_unlisted_of_lt _ _ fun e he => ?_)) (read_head_ne c m h)
          rcases List.mem_cons.1 he with rfl | he
          · exact lt
          · exact Nat.lt_trans lt (hd e he)
        · exact eq
        · refine absurd ((hr d.1).symm.trans (read_unlisted_of_lt _ _ fun e he => ?_)) (read_head_ne d m' h')
          rcases List.mem_cons.1 he with rfl | he
          · exact gt
          · exact Nat.lt_trans gt (hc e he)
      have hb : c.2 = d.2 := by
        have := hr c.1
        simpa [Memory.read, Memory.find, hcd] using this
      have htail : m = m' := by
        refine ih m' (wf_tail h) (wf_tail h') fun a => ?_
        by_cases ha : c.1 = a
        · rw [read_unlisted_of_lt m a (fun e he => ha ▸ hc e he),
            read_unlisted_of_lt m' a (fun e he => ha ▸ hcd ▸ hd e he)]
        · have := hr a
          simpa [Memory.read, Memory.find, ha, hcd ▸ ha] using this
      rw [htail, Prod.ext hcd hb]

end Sys2Proof.Laws
end

