-- ==== Sys2Proof/Laws/State.lean ====
section
/-! SUPPORT. One lemma per field per named update of the state, each true by `rfl`, so that no proof unfolds a record update. -/

namespace Sys2Proof.Laws

open Sys2Proof.Machine

@[simp] theorem setV_v (s : State) (x : RegIdx) (b : Byte) : (setV s x b).v = s.v.set x.val b x.isLt := rfl
@[simp] theorem setV_i (s : State) (x : RegIdx) (b : Byte) : (setV s x b).i = s.i := rfl
@[simp] theorem setV_pc (s : State) (x : RegIdx) (b : Byte) : (setV s x b).pc = s.pc := rfl
@[simp] theorem setV_stack (s : State) (x : RegIdx) (b : Byte) : (setV s x b).stack = s.stack := rfl
@[simp] theorem setV_sp (s : State) (x : RegIdx) (b : Byte) : (setV s x b).sp = s.sp := rfl
@[simp] theorem setV_dt (s : State) (x : RegIdx) (b : Byte) : (setV s x b).dt = s.dt := rfl
@[simp] theorem setV_st (s : State) (x : RegIdx) (b : Byte) : (setV s x b).st = s.st := rfl
@[simp] theorem setV_fb (s : State) (x : RegIdx) (b : Byte) : (setV s x b).fb = s.fb := rfl
@[simp] theorem setV_key (s : State) (x : RegIdx) (b : Byte) : (setV s x b).key = s.key := rfl
@[simp] theorem setV_wait (s : State) (x : RegIdx) (b : Byte) : (setV s x b).wait = s.wait := rfl
@[simp] theorem setV_waitReg (s : State) (x : RegIdx) (b : Byte) : (setV s x b).waitReg = s.waitReg := rfl
@[simp] theorem setV_fault (s : State) (x : RegIdx) (b : Byte) : (setV s x b).fault = s.fault := rfl
@[simp] theorem setV_mem (s : State) (x : RegIdx) (b : Byte) : (setV s x b).mem = s.mem := rfl
@[simp] theorem setV_tacc (s : State) (x : RegIdx) (b : Byte) : (setV s x b).tacc = s.tacc := rfl
@[simp] theorem setV_draws (s : State) (x : RegIdx) (b : Byte) : (setV s x b).draws = s.draws := rfl

@[simp] theorem setVF_v (s : State) (b : Byte) : (setVF s b).v = s.v.set vf.val b vf.isLt := rfl
@[simp] theorem setVF_i (s : State) (b : Byte) : (setVF s b).i = s.i := rfl
@[simp] theorem setVF_pc (s : State) (b : Byte) : (setVF s b).pc = s.pc := rfl
@[simp] theorem setVF_stack (s : State) (b : Byte) : (setVF s b).stack = s.stack := rfl
@[simp] theorem setVF_sp (s : State) (b : Byte) : (setVF s b).sp = s.sp := rfl
@[simp] theorem setVF_dt (s : State) (b : Byte) : (setVF s b).dt = s.dt := rfl
@[simp] theorem setVF_st (s : State) (b : Byte) : (setVF s b).st = s.st := rfl
@[simp] theorem setVF_fb (s : State) (b : Byte) : (setVF s b).fb = s.fb := rfl
@[simp] theorem setVF_key (s : State) (b : Byte) : (setVF s b).key = s.key := rfl
@[simp] theorem setVF_wait (s : State) (b : Byte) : (setVF s b).wait = s.wait := rfl
@[simp] theorem setVF_waitReg (s : State) (b : Byte) : (setVF s b).waitReg = s.waitReg := rfl
@[simp] theorem setVF_fault (s : State) (b : Byte) : (setVF s b).fault = s.fault := rfl
@[simp] theorem setVF_mem (s : State) (b : Byte) : (setVF s b).mem = s.mem := rfl
@[simp] theorem setVF_tacc (s : State) (b : Byte) : (setVF s b).tacc = s.tacc := rfl
@[simp] theorem setVF_draws (s : State) (b : Byte) : (setVF s b).draws = s.draws := rfl

@[simp] theorem setI_v (s : State) (w : Word) : (setI s w).v = s.v := rfl
@[simp] theorem setI_i (s : State) (w : Word) : (setI s w).i = w := rfl
@[simp] theorem setI_pc (s : State) (w : Word) : (setI s w).pc = s.pc := rfl
@[simp] theorem setI_stack (s : State) (w : Word) : (setI s w).stack = s.stack := rfl
@[simp] theorem setI_sp (s : State) (w : Word) : (setI s w).sp = s.sp := rfl
@[simp] theorem setI_dt (s : State) (w : Word) : (setI s w).dt = s.dt := rfl
@[simp] theorem setI_st (s : State) (w : Word) : (setI s w).st = s.st := rfl
@[simp] theorem setI_fb (s : State) (w : Word) : (setI s w).fb = s.fb := rfl
@[simp] theorem setI_key (s : State) (w : Word) : (setI s w).key = s.key := rfl
@[simp] theorem setI_wait (s : State) (w : Word) : (setI s w).wait = s.wait := rfl
@[simp] theorem setI_waitReg (s : State) (w : Word) : (setI s w).waitReg = s.waitReg := rfl
@[simp] theorem setI_fault (s : State) (w : Word) : (setI s w).fault = s.fault := rfl
@[simp] theorem setI_mem (s : State) (w : Word) : (setI s w).mem = s.mem := rfl
@[simp] theorem setI_tacc (s : State) (w : Word) : (setI s w).tacc = s.tacc := rfl
@[simp] theorem setI_draws (s : State) (w : Word) : (setI s w).draws = s.draws := rfl

@[simp] theorem setPc_v (s : State) (w : Word) : (setPc s w).v = s.v := rfl
@[simp] theorem setPc_i (s : State) (w : Word) : (setPc s w).i = s.i := rfl
@[simp] theorem setPc_pc (s : State) (w : Word) : (setPc s w).pc = w := rfl
@[simp] theorem setPc_stack (s : State) (w : Word) : (setPc s w).stack = s.stack := rfl
@[simp] theorem setPc_sp (s : State) (w : Word) : (setPc s w).sp = s.sp := rfl
@[simp] theorem setPc_dt (s : State) (w : Word) : (setPc s w).dt = s.dt := rfl
@[simp] theorem setPc_st (s : State) (w : Word) : (setPc s w).st = s.st := rfl
@[simp] theorem setPc_fb (s : State) (w : Word) : (setPc s w).fb = s.fb := rfl
@[simp] theorem setPc_key (s : State) (w : Word) : (setPc s w).key = s.key := rfl
@[simp] theorem setPc_wait (s : State) (w : Word) : (setPc s w).wait = s.wait := rfl
@[simp] theorem setPc_waitReg (s : State) (w : Word) : (setPc s w).waitReg = s.waitReg := rfl
@[simp] theorem setPc_fault (s : State) (w : Word) : (setPc s w).fault = s.fault := rfl
@[simp] theorem setPc_mem (s : State) (w : Word) : (setPc s w).mem = s.mem := rfl
@[simp] theorem setPc_tacc (s : State) (w : Word) : (setPc s w).tacc = s.tacc := rfl
@[simp] theorem setPc_draws (s : State) (w : Word) : (setPc s w).draws = s.draws := rfl

@[simp] theorem advance_v (s : State) : (advance s).v = s.v := rfl
@[simp] theorem advance_i (s : State) : (advance s).i = s.i := rfl
@[simp] theorem advance_pc (s : State) : (advance s).pc = s.pc + 2 := rfl
@[simp] theorem advance_stack (s : State) : (advance s).stack = s.stack := rfl
@[simp] theorem advance_sp (s : State) : (advance s).sp = s.sp := rfl
@[simp] theorem advance_dt (s : State) : (advance s).dt = s.dt := rfl
@[simp] theorem advance_st (s : State) : (advance s).st = s.st := rfl
@[simp] theorem advance_fb (s : State) : (advance s).fb = s.fb := rfl
@[simp] theorem advance_key (s : State) : (advance s).key = s.key := rfl
@[simp] theorem advance_wait (s : State) : (advance s).wait = s.wait := rfl
@[simp] theorem advance_waitReg (s : State) : (advance s).waitReg = s.waitReg := rfl
@[simp] theorem advance_fault (s : State) : (advance s).fault = s.fault := rfl
@[simp] theorem advance_mem (s : State) : (advance s).mem = s.mem := rfl
@[simp] theorem advance_tacc (s : State) : (advance s).tacc = s.tacc := rfl
@[simp] theorem advance_draws (s : State) : (advance s).draws = s.draws := rfl

@[simp] theorem advanceSkip_v (s : State) : (advanceSkip s).v = s.v := rfl
@[simp] theorem advanceSkip_i (s : State) : (advanceSkip s).i = s.i := rfl
@[simp] theorem advanceSkip_pc (s : State) : (advanceSkip s).pc = s.pc + 4 := rfl
@[simp] theorem advanceSkip_stack (s : State) : (advanceSkip s).stack = s.stack := rfl
@[simp] theorem advanceSkip_sp (s : State) : (advanceSkip s).sp = s.sp := rfl
@[simp] theorem advanceSkip_dt (s : State) : (advanceSkip s).dt = s.dt := rfl
@[simp] theorem advanceSkip_st (s : State) : (advanceSkip s).st = s.st := rfl
@[simp] theorem advanceSkip_fb (s : State) : (advanceSkip s).fb = s.fb := rfl
@[simp] theorem advanceSkip_key (s : State) : (advanceSkip s).key = s.key := rfl
@[simp] theorem advanceSkip_wait (s : State) : (advanceSkip s).wait = s.wait := rfl
@[simp] theorem advanceSkip_waitReg (s : State) : (advanceSkip s).waitReg = s.waitReg := rfl
@[simp] theorem advanceSkip_fault (s : State) : (advanceSkip s).fault = s.fault := rfl
@[simp] theorem advanceSkip_mem (s : State) : (advanceSkip s).mem = s.mem := rfl
@[simp] theorem advanceSkip_tacc (s : State) : (advanceSkip s).tacc = s.tacc := rfl
@[simp] theorem advanceSkip_draws (s : State) : (advanceSkip s).draws = s.draws := rfl

@[simp] theorem memWrite_v (s : State) (a : Nat) (b : Byte) : (memWrite s a b).v = s.v := rfl
@[simp] theorem memWrite_i (s : State) (a : Nat) (b : Byte) : (memWrite s a b).i = s.i := rfl
@[simp] theorem memWrite_pc (s : State) (a : Nat) (b : Byte) : (memWrite s a b).pc = s.pc := rfl
@[simp] theorem memWrite_stack (s : State) (a : Nat) (b : Byte) : (memWrite s a b).stack = s.stack := rfl
@[simp] theorem memWrite_sp (s : State) (a : Nat) (b : Byte) : (memWrite s a b).sp = s.sp := rfl
@[simp] theorem memWrite_dt (s : State) (a : Nat) (b : Byte) : (memWrite s a b).dt = s.dt := rfl
@[simp] theorem memWrite_st (s : State) (a : Nat) (b : Byte) : (memWrite s a b).st = s.st := rfl
@[simp] theorem memWrite_fb (s : State) (a : Nat) (b : Byte) : (memWrite s a b).fb = s.fb := rfl
@[simp] theorem memWrite_key (s : State) (a : Nat) (b : Byte) : (memWrite s a b).key = s.key := rfl
@[simp] theorem memWrite_wait (s : State) (a : Nat) (b : Byte) : (memWrite s a b).wait = s.wait := rfl
@[simp] theorem memWrite_waitReg (s : State) (a : Nat) (b : Byte) : (memWrite s a b).waitReg = s.waitReg := rfl
@[simp] theorem memWrite_fault (s : State) (a : Nat) (b : Byte) : (memWrite s a b).fault = s.fault := rfl
@[simp] theorem memWrite_mem (s : State) (a : Nat) (b : Byte) : (memWrite s a b).mem = Memory.write s.mem (ea a) b := rfl
@[simp] theorem memWrite_tacc (s : State) (a : Nat) (b : Byte) : (memWrite s a b).tacc = s.tacc := rfl
@[simp] theorem memWrite_draws (s : State) (a : Nat) (b : Byte) : (memWrite s a b).draws = s.draws := rfl

@[simp] theorem setKey_v (s : State) (k : KeyCode) (p : Bool) : (setKey s k p).v = s.v := rfl
@[simp] theorem setKey_i (s : State) (k : KeyCode) (p : Bool) : (setKey s k p).i = s.i := rfl
@[simp] theorem setKey_pc (s : State) (k : KeyCode) (p : Bool) : (setKey s k p).pc = s.pc := rfl
@[simp] theorem setKey_stack (s : State) (k : KeyCode) (p : Bool) : (setKey s k p).stack = s.stack := rfl
@[simp] theorem setKey_sp (s : State) (k : KeyCode) (p : Bool) : (setKey s k p).sp = s.sp := rfl
@[simp] theorem setKey_dt (s : State) (k : KeyCode) (p : Bool) : (setKey s k p).dt = s.dt := rfl
@[simp] theorem setKey_st (s : State) (k : KeyCode) (p : Bool) : (setKey s k p).st = s.st := rfl
@[simp] theorem setKey_fb (s : State) (k : KeyCode) (p : Bool) : (setKey s k p).fb = s.fb := rfl
@[simp] theorem setKey_key (s : State) (k : KeyCode) (p : Bool) : (setKey s k p).key = s.key.set k.val p k.isLt := rfl
@[simp] theorem setKey_wait (s : State) (k : KeyCode) (p : Bool) : (setKey s k p).wait = s.wait := rfl
@[simp] theorem setKey_waitReg (s : State) (k : KeyCode) (p : Bool) : (setKey s k p).waitReg = s.waitReg := rfl
@[simp] theorem setKey_fault (s : State) (k : KeyCode) (p : Bool) : (setKey s k p).fault = s.fault := rfl
@[simp] theorem setKey_mem (s : State) (k : KeyCode) (p : Bool) : (setKey s k p).mem = s.mem := rfl
@[simp] theorem setKey_tacc (s : State) (k : KeyCode) (p : Bool) : (setKey s k p).tacc = s.tacc := rfl
@[simp] theorem setKey_draws (s : State) (k : KeyCode) (p : Bool) : (setKey s k p).draws = s.draws := rfl

@[simp] theorem timerDecrement_v (s : State) : (timerDecrement s).v = s.v := rfl
@[simp] theorem timerDecrement_i (s : State) : (timerDecrement s).i = s.i := rfl
@[simp] theorem timerDecrement_pc (s : State) : (timerDecrement s).pc = s.pc := rfl
@[simp] theorem timerDecrement_stack (s : State) : (timerDecrement s).stack = s.stack := rfl
@[simp] theorem timerDecrement_sp (s : State) : (timerDecrement s).sp = s.sp := rfl
@[simp] theorem timerDecrement_dt (s : State) : (timerDecrement s).dt = timerDown s.dt := rfl
@[simp] theorem timerDecrement_st (s : State) : (timerDecrement s).st = timerDown s.st := rfl
@[simp] theorem timerDecrement_fb (s : State) : (timerDecrement s).fb = s.fb := rfl
@[simp] theorem timerDecrement_key (s : State) : (timerDecrement s).key = s.key := rfl
@[simp] theorem timerDecrement_wait (s : State) : (timerDecrement s).wait = s.wait := rfl
@[simp] theorem timerDecrement_waitReg (s : State) : (timerDecrement s).waitReg = s.waitReg := rfl
@[simp] theorem timerDecrement_fault (s : State) : (timerDecrement s).fault = s.fault := rfl
@[simp] theorem timerDecrement_mem (s : State) : (timerDecrement s).mem = s.mem := rfl
@[simp] theorem timerDecrement_tacc (s : State) : (timerDecrement s).tacc = s.tacc := rfl
@[simp] theorem timerDecrement_draws (s : State) : (timerDecrement s).draws = s.draws := rfl

@[simp] theorem resetCore_v (s : State) : (resetCore s).v = State.reset.v := rfl
@[simp] theorem resetCore_i (s : State) : (resetCore s).i = State.reset.i := rfl
@[simp] theorem resetCore_pc (s : State) : (resetCore s).pc = State.reset.pc := rfl
@[simp] theorem resetCore_stack (s : State) : (resetCore s).stack = State.reset.stack := rfl
@[simp] theorem resetCore_sp (s : State) : (resetCore s).sp = State.reset.sp := rfl
@[simp] theorem resetCore_dt (s : State) : (resetCore s).dt = State.reset.dt := rfl
@[simp] theorem resetCore_st (s : State) : (resetCore s).st = State.reset.st := rfl
@[simp] theorem resetCore_fb (s : State) : (resetCore s).fb = State.reset.fb := rfl
@[simp] theorem resetCore_key (s : State) : (resetCore s).key = State.reset.key := rfl
@[simp] theorem resetCore_wait (s : State) : (resetCore s).wait = State.reset.wait := rfl
@[simp] theorem resetCore_waitReg (s : State) : (resetCore s).waitReg = State.reset.waitReg := rfl
@[simp] theorem resetCore_fault (s : State) : (resetCore s).fault = State.reset.fault := rfl
@[simp] theorem resetCore_mem (s : State) : (resetCore s).mem = State.reset.mem := rfl
@[simp] theorem resetCore_tacc (s : State) : (resetCore s).tacc = State.reset.tacc := rfl
@[simp] theorem resetCore_draws (s : State) : (resetCore s).draws = s.draws := rfl

@[simp] theorem skipIf_v (c : Bool) (s : State) : (skipIf c s).v = s.v := by cases c <;> rfl
@[simp] theorem skipIf_i (c : Bool) (s : State) : (skipIf c s).i = s.i := by cases c <;> rfl
@[simp] theorem skipIf_pc (c : Bool) (s : State) : (skipIf c s).pc = if c then s.pc + 4 else s.pc + 2 := by
  cases c <;> rfl
@[simp] theorem skipIf_stack (c : Bool) (s : State) : (skipIf c s).stack = s.stack := by cases c <;> rfl
@[simp] theorem skipIf_sp (c : Bool) (s : State) : (skipIf c s).sp = s.sp := by cases c <;> rfl
@[simp] theorem skipIf_dt (c : Bool) (s : State) : (skipIf c s).dt = s.dt := by cases c <;> rfl
@[simp] theorem skipIf_st (c : Bool) (s : State) : (skipIf c s).st = s.st := by cases c <;> rfl
@[simp] theorem skipIf_fb (c : Bool) (s : State) : (skipIf c s).fb = s.fb := by cases c <;> rfl
@[simp] theorem skipIf_key (c : Bool) (s : State) : (skipIf c s).key = s.key := by cases c <;> rfl
@[simp] theorem skipIf_wait (c : Bool) (s : State) : (skipIf c s).wait = s.wait := by cases c <;> rfl
@[simp] theorem skipIf_waitReg (c : Bool) (s : State) : (skipIf c s).waitReg = s.waitReg := by cases c <;> rfl
@[simp] theorem skipIf_fault (c : Bool) (s : State) : (skipIf c s).fault = s.fault := by cases c <;> rfl
@[simp] theorem skipIf_mem (c : Bool) (s : State) : (skipIf c s).mem = s.mem := by cases c <;> rfl
@[simp] theorem skipIf_tacc (c : Bool) (s : State) : (skipIf c s).tacc = s.tacc := by cases c <;> rfl
@[simp] theorem skipIf_draws (c : Bool) (s : State) : (skipIf c s).draws = s.draws := by cases c <;> rfl

/-! ### The composite effects: what each leaves alone -/

@[simp] theorem setResultThenFlag_i (x : RegIdx) (r f : Byte) (s : State) : (setResultThenFlag x r f s).i = s.i := rfl
@[simp] theorem setResultThenFlag_pc (x : RegIdx) (r f : Byte) (s : State) : (setResultThenFlag x r f s).pc = s.pc := rfl
@[simp] theorem setResultThenFlag_stack (x : RegIdx) (r f : Byte) (s : State) : (setResultThenFlag x r f s).stack = s.stack := rfl
@[simp] theorem setResultThenFlag_sp (x : RegIdx) (r f : Byte) (s : State) : (setResultThenFlag x r f s).sp = s.sp := rfl
@[simp] theorem setResultThenFlag_dt (x : RegIdx) (r f : Byte) (s : State) : (setResultThenFlag x r f s).dt = s.dt := rfl
@[simp] theorem setResultThenFlag_st (x : RegIdx) (r f : Byte) (s : State) : (setResultThenFlag x r f s).st = s.st := rfl
@[simp] theorem setResultThenFlag_fb (x : RegIdx) (r f : Byte) (s : State) : (setResultThenFlag x r f s).fb = s.fb := rfl
@[simp] theorem setResultThenFlag_key (x : RegIdx) (r f : Byte) (s : State) : (setResultThenFlag x r f s).key = s.key := rfl
@[simp] theorem setResultThenFlag_wait (x : RegIdx) (r f : Byte) (s : State) : (setResultThenFlag x r f s).wait = s.wait := rfl
@[simp] theorem setResultThenFlag_waitReg (x : RegIdx) (r f : Byte) (s : State) : (setResultThenFlag x r f s).waitReg = s.waitReg := rfl
@[simp] theorem setResultThenFlag_fault (x : RegIdx) (r f : Byte) (s : State) : (setResultThenFlag x r f s).fault = s.fault := rfl
@[simp] theorem setResultThenFlag_mem (x : RegIdx) (r f : Byte) (s : State) : (setResultThenFlag x r f s).mem = s.mem := rfl
@[simp] theorem setResultThenFlag_tacc (x : RegIdx) (r f : Byte) (s : State) : (setResultThenFlag x r f s).tacc = s.tacc := rfl
@[simp] theorem setResultThenFlag_draws (x : RegIdx) (r f : Byte) (s : State) : (setResultThenFlag x r f s).draws = s.draws := rfl

@[simp] theorem subtract_i (x y : RegIdx) (s : State) : (subtract x y s).i = s.i := rfl
@[simp] theorem subtract_pc (x y : RegIdx) (s : State) : (subtract x y s).pc = s.pc := rfl
@[simp] theorem subtract_stack (x y : RegIdx) (s : State) : (subtract x y s).stack = s.stack := rfl
@[simp] theorem subtract_sp (x y : RegIdx) (s : State) : (subtract x y s).sp = s.sp := rfl
@[simp] theorem subtract_dt (x y : RegIdx) (s : State) : (subtract x y s).dt = s.dt := rfl
@[simp] theorem subtract_st (x y : RegIdx) (s : State) : (subtract x y s).st = s.st := rfl
@[simp] theorem subtract_fb (x y : RegIdx) (s : State) : (subtract x y s).fb = s.fb := rfl
@[simp] theorem subtract_key (x y : RegIdx) (s : State) : (subtract x y s).key = s.key := rfl
@[simp] theorem subtract_wait (x y : RegIdx) (s : State) : (subtract x y s).wait = s.wait := rfl
@[simp] theorem subtract_waitReg (x y : RegIdx) (s : State) : (subtract x y s).waitReg = s.waitReg := rfl
@[simp] theorem subtract_fault (x y : RegIdx) (s : State) : (subtract x y s).fault = s.fault := rfl
@[simp] theorem subtract_mem (x y : RegIdx) (s : State) : (subtract x y s).mem = s.mem := rfl
@[simp] theorem subtract_tacc (x y : RegIdx) (s : State) : (subtract x y s).tacc = s.tacc := rfl
@[simp] theorem subtract_draws (x y : RegIdx) (s : State) : (subtract x y s).draws = s.draws := rfl

@[simp] theorem flagThenShift_i (x : RegIdx) (f : Byte → Byte) (s : State) : (flagThenShift x f s).i = s.i := rfl
@[simp] theorem flagThenShift_pc (x : RegIdx) (f : Byte → Byte) (s : State) : (flagThenShift x f s).pc = s.pc := rfl
@[simp] theorem flagThenShift_stack (x : RegIdx) (f : Byte → Byte) (s : State) : (flagThenShift x f s).stack = s.stack := rfl
@[simp] theorem flagThenShift_sp (x : RegIdx) (f : Byte → Byte) (s : State) : (flagThenShift x f s).sp = s.sp := rfl
@[simp] theorem flagThenShift_dt (x : RegIdx) (f : Byte → Byte) (s : State) : (flagThenShift x f s).dt = s.dt := rfl
@[simp] theorem flagThenShift_st (x : RegIdx) (f : Byte → Byte) (s : State) : (flagThenShift x f s).st = s.st := rfl
@[simp] theorem flagThenShift_fb (x : RegIdx) (f : Byte → Byte) (s : State) : (flagThenShift x f s).fb = s.fb := rfl
@[simp] theorem flagThenShift_key (x : RegIdx) (f : Byte → Byte) (s : State) : (flagThenShift x f s).key = s.key := rfl
@[simp] theorem flagThenShift_wait (x : RegIdx) (f : Byte → Byte) (s : State) : (flagThenShift x f s).wait = s.wait := rfl
@[simp] theorem flagThenShift_waitReg (x : RegIdx) (f : Byte → Byte) (s : State) : (flagThenShift x f s).waitReg = s.waitReg := rfl
@[simp] theorem flagThenShift_fault (x : RegIdx) (f : Byte → Byte) (s : State) : (flagThenShift x f s).fault = s.fault := rfl
@[simp] theorem flagThenShift_mem (x : RegIdx) (f : Byte → Byte) (s : State) : (flagThenShift x f s).mem = s.mem := rfl
@[simp] theorem flagThenShift_tacc (x : RegIdx) (f : Byte → Byte) (s : State) : (flagThenShift x f s).tacc = s.tacc := rfl
@[simp] theorem flagThenShift_draws (x : RegIdx) (f : Byte → Byte) (s : State) : (flagThenShift x f s).draws = s.draws := rfl

@[simp] theorem randomInto_i (r : Byte) (x : RegIdx) (nn : Byte) (s : State) : (randomInto r x nn s).i = s.i := rfl
@[simp] theorem randomInto_pc (r : Byte) (x : RegIdx) (nn : Byte) (s : State) : (randomInto r x nn s).pc = s.pc := rfl
@[simp] theorem randomInto_stack (r : Byte) (x : RegIdx) (nn : Byte) (s : State) : (randomInto r x nn s).stack = s.stack := rfl
@[simp] theorem randomInto_sp (r : Byte) (x : RegIdx) (nn : Byte) (s : State) : (randomInto r x nn s).sp = s.sp := rfl
@[simp] theorem randomInto_dt (r : Byte) (x : RegIdx) (nn : Byte) (s : State) : (randomInto r x nn s).dt = s.dt := rfl
@[simp] theorem randomInto_st (r : Byte) (x : RegIdx) (nn : Byte) (s : State) : (randomInto r x nn s).st = s.st := rfl
@[simp] theorem randomInto_fb (r : Byte) (x : RegIdx) (nn : Byte) (s : State) : (randomInto r x nn s).fb = s.fb := rfl
@[simp] theorem randomInto_key (r : Byte) (x : RegIdx) (nn : Byte) (s : State) : (randomInto r x nn s).key = s.key := rfl
@[simp] theorem randomInto_wait (r : Byte) (x : RegIdx) (nn : Byte) (s : State) : (randomInto r x nn s).wait = s.wait := rfl
@[simp] theorem randomInto_waitReg (r : Byte) (x : RegIdx) (nn : Byte) (s : State) : (randomInto r x nn s).waitReg = s.waitReg := rfl
@[simp] theorem randomInto_fault (r : Byte) (x : RegIdx) (nn : Byte) (s : State) : (randomInto r x nn s).fault = s.fault := rfl
@[simp] theorem randomInto_mem (r : Byte) (x : RegIdx) (nn : Byte) (s : State) : (randomInto r x nn s).mem = s.mem := rfl
@[simp] theorem randomInto_tacc (r : Byte) (x : RegIdx) (nn : Byte) (s : State) : (randomInto r x nn s).tacc = s.tacc := rfl

@[simp] theorem storeDigits_v (b : Byte) (s : State) : (storeDigits b s).v = s.v := rfl
@[simp] theorem storeDigits_i (b : Byte) (s : State) : (storeDigits b s).i = s.i := rfl
@[simp] theorem storeDigits_pc (b : Byte) (s : State) : (storeDigits b s).pc = s.pc := rfl
@[simp] theorem storeDigits_stack (b : Byte) (s : State) : (storeDigits b s).stack = s.stack := rfl
@[simp] theorem storeDigits_sp (b : Byte) (s : State) : (storeDigits b s).sp = s.sp := rfl
@[simp] theorem storeDigits_dt (b : Byte) (s : State) : (storeDigits b s).dt = s.dt := rfl
@[simp] theorem storeDigits_st (b : Byte) (s : State) : (storeDigits b s).st = s.st := rfl
@[simp] theorem storeDigits_fb (b : Byte) (s : State) : (storeDigits b s).fb = s.fb := rfl
@[simp] theorem storeDigits_key (b : Byte) (s : State) : (storeDigits b s).key = s.key := rfl
@[simp] theorem storeDigits_wait (b : Byte) (s : State) : (storeDigits b s).wait = s.wait := rfl
@[simp] theorem storeDigits_waitReg (b : Byte) (s : State) : (storeDigits b s).waitReg = s.waitReg := rfl
@[simp] theorem storeDigits_fault (b : Byte) (s : State) : (storeDigits b s).fault = s.fault := rfl
@[simp] theorem storeDigits_tacc (b : Byte) (s : State) : (storeDigits b s).tacc = s.tacc := rfl
@[simp] theorem storeDigits_draws (b : Byte) (s : State) : (storeDigits b s).draws = s.draws := rfl

@[simp] theorem drawSprite_i (x y : RegIdx) (n : Nibble) (s : State) : (drawSprite x y n s).i = s.i := rfl
@[simp] theorem drawSprite_pc (x y : RegIdx) (n : Nibble) (s : State) : (drawSprite x y n s).pc = s.pc := rfl
@[simp] theorem drawSprite_stack (x y : RegIdx) (n : Nibble) (s : State) : (drawSprite x y n s).stack = s.stack := rfl
@[simp] theorem drawSprite_sp (x y : RegIdx) (n : Nibble) (s : State) : (drawSprite x y n s).sp = s.sp := rfl
@[simp] theorem drawSprite_dt (x y : RegIdx) (n : Nibble) (s : State) : (drawSprite x y n s).dt = s.dt := rfl
@[simp] theorem drawSprite_st (x y : RegIdx) (n : Nibble) (s : State) : (drawSprite x y n s).st = s.st := rfl
@[simp] theorem drawSprite_key (x y : RegIdx) (n : Nibble) (s : State) : (drawSprite x y n s).key = s.key := rfl
@[simp] theorem drawSprite_wait (x y : RegIdx) (n : Nibble) (s : State) : (drawSprite x y n s).wait = s.wait := rfl
@[simp] theorem drawSprite_waitReg (x y : RegIdx) (n : Nibble) (s : State) : (drawSprite x y n s).waitReg = s.waitReg := rfl
@[simp] theorem drawSprite_fault (x y : RegIdx) (n : Nibble) (s : State) : (drawSprite x y n s).fault = s.fault := rfl
@[simp] theorem drawSprite_mem (x y : RegIdx) (n : Nibble) (s : State) : (drawSprite x y n s).mem = s.mem := rfl
@[simp] theorem drawSprite_tacc (x y : RegIdx) (n : Nibble) (s : State) : (drawSprite x y n s).tacc = s.tacc := rfl
@[simp] theorem drawSprite_draws (x y : RegIdx) (n : Nibble) (s : State) : (drawSprite x y n s).draws = s.draws := rfl

/-! ### Reading back what an update wrote -/

@[simp] theorem getV_setV (s : State) (x y : RegIdx) (b : Byte) :
    getV (setV s x b) y = if y = x then b else getV s y := by
  simp only [getV, setV, Vector.getElem_set, Fin.ext_iff, eq_comm]

@[simp] theorem getV_setVF (s : State) (y : RegIdx) (b : Byte) :
    getV (setVF s b) y = if y = 15 then b else getV s y := getV_setV s 15 y b

@[simp] theorem getKey_setKey (s : State) (k k' : KeyCode) (p : Bool) :
    getKey (setKey s k p) k' = if k' = k then p else getKey s k' := by
  simp only [getKey, setKey, Vector.getElem_set, Fin.ext_iff, eq_comm]

@[simp] theorem getPixel_setPixel (fb : Screen) (r r' : Fin 32) (c c' : Fin 64) (p : Bool) :
    getPixel (setPixel fb r c p) r' c' = if r' = r ∧ c' = c then p else getPixel fb r' c' := by
  simp only [getPixel, setPixel, Vector.getElem_set, Fin.ext_iff]
  by_cases hr : r.val = r'.val
  · by_cases hc : c.val = c'.val
    · simp [hr, hc]
    · simp [hr, hc, Ne.symm hc]
  · simp [hr, Ne.symm hr]

/-- Screens that agree on every pixel are equal. -/
theorem screen_ext (a b : Screen) (h : ∀ r c, getPixel a r c = getPixel b r c) : a = b := by
  apply Vector.ext
  intro r hr
  apply Vector.ext
  intro c hc
  exact h ⟨r, hr⟩ ⟨c, hc⟩

@[simp] theorem getPixel_clearScreen (r : Fin 32) (c : Fin 64) : getPixel clearScreen r c = false := by
  simp [getPixel, clearScreen]

/-- Register files that agree on every register are equal. -/
theorem regs_ext (s t : State) (h : ∀ x, getV s x = getV t x) : s.v = t.v := by
  apply Vector.ext
  intro x hx
  exact h ⟨x, hx⟩

@[simp] theorem setV_getV (s : State) (x : RegIdx) : setV s x (getV s x) = s := by
  have : s.v.set x.val (getV s x) x.isLt = s.v := by
    apply Vector.ext; intro k hk
    simp only [Vector.getElem_set, getV]
    split
    · next h => subst h; rfl
    · rfl
  rw [setV, this]

end Sys2Proof.Laws
end

