-- ==== Sys2Proof/Laws/Ops.lean ====
section
/-! SUPPORT. What each shared operation can do: addresses, one byte of memory, the stack, the access check, faults. -/

namespace Sys2Proof.Laws

open Sys2Proof.Machine

/-! ### Addresses and bytes -/

theorem memSize_eq : Config.memSize = 4096 := rfl

theorem ea_lt (a : Nat) : ea a < Config.memSize := Nat.mod_lt _ (by decide)

@[simp] theorem ea_ea (a : Nat) : ea (ea a) = ea a := Nat.mod_mod _ _

/-- Reducing modulo 65536 first gives the same byte (R41). -/
theorem ea_mod_65536 (a : Nat) : ea (a % 65536) = ea a := Nat.mod_mod_of_dvd _ (by decide)

/-- A byte of memory after one byte is written. -/
@[simp] theorem memRead_memWrite (s : State) (a a' : Nat) (b : Byte) :
    memRead (memWrite s a b) a' = if ea a' = ea a then b else memRead s a' := read_write s.mem (ea a) (ea a') b

/-- A read depends on the memory alone. -/
theorem memRead_congr {s t : State} (h : s.mem = t.mem) (a : Nat) : memRead s a = memRead t a := by
  simp only [memRead, h]

@[simp] theorem memRead_advance (s : State) (a : Nat) : memRead (advance s) a = memRead s a := rfl
@[simp] theorem memRead_setV (s : State) (x : RegIdx) (b : Byte) (a : Nat) : memRead (setV s x b) a = memRead s a := rfl
@[simp] theorem getV_memWrite (s : State) (a : Nat) (b : Byte) (x : RegIdx) : getV (memWrite s a b) x = getV s x := rfl
@[simp] theorem getV_advance (s : State) (x : RegIdx) : getV (advance s) x = getV s x := rfl

/-- A write keeps the canonical form of memory. -/
theorem wf_memWrite (s : State) (a : Nat) (b : Byte) (h : Memory.wf s.mem) : Memory.wf (memWrite s a b).mem :=
  wf_write s.mem (ea a) b (ea_lt a) h

/-- Addresses less than `MEM_SIZE` apart are different bytes. -/
theorem ea_add_inj {a j k : Nat} (hj : j < 4096) (hk : k < 4096) (h : ea (a + j) = ea (a + k)) : j = k := by
  simp only [ea, memSize_eq] at h
  omega

/-! ### The stack -/

theorem pushStack_of_lt (s : State) (w : Word) (h : s.sp.val < 16) :
    pushStack s w = some { s with stack := s.stack.set s.sp.val w h, sp := ⟨s.sp.val + 1, by omega⟩ } := by
  simp only [pushStack, dif_pos h]

theorem pushStack_full (s : State) (w : Word) (h : s.sp.val = 16) : pushStack s w = none := by
  simp [pushStack, h]

theorem popStack_of_pos (s : State) (h : 0 < s.sp.val) :
    popStack s = some (s.stack[s.sp.val - 1]'(by have := s.sp.isLt; omega), { s with sp := ⟨s.sp.val - 1, by omega⟩ }) := by
  simp only [popStack, dif_pos h]

theorem popStack_empty (s : State) (h : s.sp.val = 0) : popStack s = none := by
  simp [popStack, h]

/-- A push succeeds exactly below the capacity, and then changes the stack alone. -/
theorem pushStack_cases (s : State) (w : Word) :
    (s.sp.val = 16 ∧ pushStack s w = none) ∨
    ∃ h : s.sp.val < 16,
      pushStack s w = some { s with stack := s.stack.set s.sp.val w h, sp := ⟨s.sp.val + 1, by omega⟩ } := by
  by_cases h : s.sp.val < 16
  · exact .inr ⟨h, pushStack_of_lt s w h⟩
  · have := s.sp.isLt
    exact .inl ⟨by omega, pushStack_full s w (by omega)⟩

/-- A pop succeeds exactly when an address is held, and then changes the depth alone. -/
theorem popStack_cases (s : State) :
    (s.sp.val = 0 ∧ popStack s = none) ∨
    ∃ h : 0 < s.sp.val,
      popStack s = some (s.stack[s.sp.val - 1]'(by have := s.sp.isLt; omega), { s with sp := ⟨s.sp.val - 1, by omega⟩ }) := by
  by_cases h : 0 < s.sp.val
  · exact .inr ⟨h, popStack_of_pos s h⟩
  · exact .inl ⟨by omega, popStack_empty s (by omega)⟩

/-! ### The access check and faults -/

/-- Under the default policy `wrap` every access is allowed (R41). -/
@[simp] theorem inRange_config (a n : Nat) : inRange Config.params.addrPolicy a n = true := rfl

/-- Under the default policy an access has its effect. -/
@[simp] theorem access_config (w : Word) (a n : Nat) (s t : State) :
    access Config.params.addrPolicy w a n s t = .next t := rfl

/-- Taking a fault changes `FAULT` alone (R176). -/
theorem raise_eq (k : FaultKind) (w : Word) (s : State) :
    raise k w s = .next { s with fault := some { kind := k, word := w, offset := s.pc - Config.programOffset } } := rfl

/-- Every fault kind has a code of its own (R170). -/
theorem code_injective : Function.Injective FaultKind.code := by
  intro a b h
  cases a <;> cases b <;> first | rfl | exact absurd h (by decide)

end Sys2Proof.Laws
end

