-- ==== Sys2Proof/Laws/Operands.lean ====
section
/-! SUPPORT. What the operand forms and the flags are. -/

namespace Sys2Proof.Laws

open Sys2Proof.Machine

theorem mem_allRegs (k : RegIdx) : k ∈ allRegs := by revert k; decide

@[simp] theorem mem_regsUpTo (x k : RegIdx) : k ∈ regsUpTo x ↔ k ≤ x := by
  simp [regsUpTo, mem_allRegs]

theorem nodup_regsUpTo (x : RegIdx) : (regsUpTo x).Nodup := List.Nodup.filter _ (by decide)

theorem length_regsUpTo (x : RegIdx) : (regsUpTo x).length = x.val + 1 := by revert x; decide

theorem keyOperand_of_lt (b : Byte) (h : b.toNat < 16) : keyOperand b = some ⟨b.toNat, h⟩ := by
  simp only [keyOperand, dif_pos h]

theorem keyOperand_of_ge (b : Byte) (h : 16 ≤ b.toNat) : keyOperand b = none := by
  simp only [keyOperand, dif_neg (Nat.not_lt.2 h)]

theorem keyOperand_cases (b : Byte) :
    (∃ h : b.toNat < 16, keyOperand b = some ⟨b.toNat, h⟩) ∨ (16 ≤ b.toNat ∧ keyOperand b = none) := by
  by_cases h : b.toNat < 16
  · exact .inl ⟨h, keyOperand_of_lt b h⟩
  · exact .inr ⟨Nat.not_lt.1 h, keyOperand_of_ge b (Nat.not_lt.1 h)⟩

theorem zextImm_toNat (nnn : Imm12) : (zextImm nnn).toNat = nnn.toNat := by
  have := nnn.isLt
  simp only [zextImm, BitVec.toNat_setWidth]; omega

theorem zextByte_toNat (b : Byte) : (zextByte b).toNat = b.toNat := by
  have := b.isLt
  simp only [zextByte, BitVec.toNat_setWidth]; omega

theorem zextKey_toNat (k : KeyCode) : (zextKey k).toNat = k.val := by
  have := k.isLt
  simp only [zextKey, BitVec.toNat_ofNat]; omega

theorem hundreds_toNat (b : Byte) : (hundreds b).toNat = b.toNat / 100 := by
  have := b.isLt
  simp only [hundreds, BitVec.toNat_ofNat]; omega

theorem tens_toNat (b : Byte) : (tens b).toNat = b.toNat / 10 % 10 := by
  simp only [tens, BitVec.toNat_ofNat]; omega

theorem units_toNat (b : Byte) : (units b).toNat = b.toNat % 10 := by
  simp only [units, BitVec.toNat_ofNat]; omega

@[simp] theorem indexAddr_advance (s : State) (k : Nat) : indexAddr (advance s) k = indexAddr s k := rfl
@[simp] theorem indexAddr_memWrite (s : State) (a : Nat) (b : Byte) (k : Nat) :
    indexAddr (memWrite s a b) k = indexAddr s k := rfl

/-! ### Flags (R11, R126 to R130) -/

theorem b2i_toNat (c : Bool) : (b2i c).toNat = if c then 1 else 0 := by cases c <;> rfl

theorem b2i_cases (c : Bool) : b2i c = 0 ∨ b2i c = 1 := by cases c <;> simp [b2i]

theorem b2i_eq_one (c : Bool) : b2i c = 1 ↔ c = true := by cases c <;> simp [b2i]

theorem carryFlag_eq (a b : Byte) : carryFlag a b = if 255 < a.toNat + b.toNat then 1 else 0 := by
  simp only [carryFlag, b2i, decide_eq_true_eq]

theorem borrowFlag_eq (a b : Byte) : borrowFlag a b = if a.toNat < b.toNat then 1 else 0 := by
  simp only [borrowFlag, b2i, decide_eq_true_eq]

theorem lsbFlag_toNat (a : Byte) : (lsbFlag a).toNat = a.toNat % 2 := by
  simp only [lsbFlag, BitVec.toNat_and]
  exact Nat.and_one_is_mod a.toNat

end Sys2Proof.Laws
end

