-- ==== Sys2Proof/Laws/Display.lean ====
section
/-! SUPPORT. What the compositor's loops compute, pixel by pixel (`44_display.md` R151, R152): the loops of the model in a form
without loops. -/

namespace Sys2Proof.Laws

open Sys2Proof.Machine

/-- How far column `c` lies to the right of `x0`, modulo 64. -/
def colDist (x0 : Nat) (c : Fin 64) : Nat := (c.val + 64 - x0 % 64) % 64

/-- How far row `r` lies below `y0`, modulo 32. -/
def rowDist (y0 : Nat) (r : Fin 32) : Nat := (r.val + 32 - y0 % 32) % 32

theorem colDist_colOf (x0 j : Nat) (h : j < 64) : colDist x0 (colOf (x0 + j)) = j := by
  simp only [colDist, colOf]; omega

theorem rowDist_rowOf (y0 r : Nat) (h : r < 32) : rowDist y0 (rowOf (y0 + r)) = r := by
  simp only [rowDist, rowOf]; omega

theorem colOf_colDist (x0 : Nat) (c : Fin 64) : colOf (x0 + colDist x0 c) = c := by
  apply Fin.ext; have := c.isLt; simp only [colDist, colOf]; omega

theorem rowOf_rowDist (y0 : Nat) (r : Fin 32) : rowOf (y0 + rowDist y0 r) = r := by
  apply Fin.ext; have := r.isLt; simp only [rowDist, rowOf]; omega

theorem eq_colOf_iff (x0 j : Nat) (h : j < 64) (c : Fin 64) : c = colOf (x0 + j) ↔ colDist x0 c = j :=
  ⟨fun e => by rw [e, colDist_colOf x0 j h], fun e => by rw [← e, colOf_colDist]⟩

theorem eq_rowOf_iff (y0 r : Nat) (h : r < 32) (q : Fin 32) : q = rowOf (y0 + r) ↔ rowDist y0 q = r :=
  ⟨fun e => by rw [e, rowDist_rowOf y0 r h], fun e => by rw [← e, rowOf_rowDist]⟩

/-! ### One byte -/

/-- The first `m` pixels of a byte. -/
def blendBits (x0 : Nat) (row : Fin 32) (b : Byte) (m : Nat) (c : Canvas) : Canvas :=
  (List.range m).foldl (fun c j => c.blend row (colOf (x0 + j)) (b.getLsbD (7 - j))) c

theorem blendBits_succ (x0 : Nat) (row : Fin 32) (b : Byte) (m : Nat) (c : Canvas) :
    blendBits x0 row b (m + 1) c = (blendBits x0 row b m c).blend row (colOf (x0 + m)) (b.getLsbD (7 - m)) := by
  simp [blendBits, List.range_succ]

theorem blendBits_pixel (x0 : Nat) (row : Fin 32) (b : Byte) (m : Nat) (hm : m ≤ 8) (c : Canvas) (r : Fin 32) (k : Fin 64) :
    getPixel (blendBits x0 row b m c).fb r k
      = (getPixel c.fb r k ^^ (decide (r = row) && decide (colDist x0 k < m) && b.getLsbD (7 - colDist x0 k))) := by
  induction m with
  | zero => simp [blendBits]
  | succ m ih =>
    have ih' := ih (by omega)
    rw [blendBits_succ]
    simp only [Canvas.blend, getPixel_setPixel, eq_colOf_iff x0 m (by omega) k]
    by_cases hr : r = row
    · subst hr
      by_cases hk : colDist x0 k = m
      · have e : k = colOf (x0 + m) := (eq_colOf_iff x0 m (by omega) k).2 hk
        rw [if_pos ⟨rfl, hk⟩, ← e, ih', hk]; simp
      · have : (colDist x0 k < m + 1) ↔ (colDist x0 k < m) := by omega
        simp [hk, ih', this]
    · simp [hr, ih']

theorem blendBits_hit (x0 : Nat) (row : Fin 32) (b : Byte) (m : Nat) (hm : m ≤ 8) (c : Canvas) :
    (blendBits x0 row b m c).hit = true ↔
      c.hit = true ∨ ∃ j < m, b.getLsbD (7 - j) = true ∧ getPixel c.fb row (colOf (x0 + j)) = true := by
  induction m with
  | zero => simp [blendBits]
  | succ m ih =>
    rw [blendBits_succ]
    simp only [Canvas.blend, Bool.or_eq_true, Bool.and_eq_true, ih (by omega),
      blendBits_pixel x0 row b m (by omega) c row (colOf (x0 + m)), colDist_colOf x0 m (by omega), Nat.lt_irrefl]
    constructor
    · rintro ((h | ⟨j, hj, h⟩) | ⟨h1, h2⟩)
      · exact .inl h
      · exact .inr ⟨j, by omega, h⟩
      · exact .inr ⟨m, by omega, h1, by simpa using h2⟩
    · rintro (h | ⟨j, hj, h1, h2⟩)
      · exact .inl (.inl h)
      · by_cases e : j = m
        · subst e; exact .inr ⟨h1, by simpa using h2⟩
        · exact .inl (.inr ⟨j, by omega, h1, h2⟩)

theorem blendByte_eq (x0 : Nat) (row : Fin 32) (b : Byte) (c : Canvas) : c.blendByte x0 row b = blendBits x0 row b 8 c := rfl

/-! ### All rows -/

theorem blendRows_succ (sprite : Nat → Byte) (x0 y0 n : Nat) (c : Canvas) :
    Canvas.blendRows sprite x0 y0 (n + 1) c = (Canvas.blendRows sprite x0 y0 n c).blendByte x0 (rowOf (y0 + n)) (sprite n) := by
  simp [Canvas.blendRows, List.range_succ]

/-- The source bit that lands on pixel (`r`, `k`), false where the sprite does not reach. -/
def sourceBit (sprite : Nat → Byte) (x0 y0 n : Nat) (r : Fin 32) (k : Fin 64) : Bool :=
  decide (rowDist y0 r < n) && decide (colDist x0 k < 8) && (sprite (rowDist y0 r)).getLsbD (7 - colDist x0 k)

/-- Every pixel after compositing: the old pixel XOR the source bit that lands on it (R151). -/
theorem blendRows_pixel (sprite : Nat → Byte) (x0 y0 n : Nat) (hn : n ≤ 32) (c : Canvas) (r : Fin 32) (k : Fin 64) :
    getPixel (Canvas.blendRows sprite x0 y0 n c).fb r k = (getPixel c.fb r k ^^ sourceBit sprite x0 y0 n r k) := by
  induction n with
  | zero => simp [Canvas.blendRows, sourceBit]
  | succ n ih =>
    rw [blendRows_succ, blendByte_eq, blendBits_pixel _ _ _ 8 (Nat.le_refl 8), ih (by omega)]
    by_cases hr : rowDist y0 r = n
    · simp [sourceBit, (eq_rowOf_iff y0 n (by omega) r).2 hr, rowDist_rowOf y0 n (by omega)]
    · have h1 : r ≠ rowOf (y0 + n) := fun e => hr ((eq_rowOf_iff y0 n (by omega) r).1 e)
      have h2 : (rowDist y0 r < n + 1) ↔ (rowDist y0 r < n) := by omega
      simp [sourceBit, h1, h2]

/-- The collision flag: some source bit 1 met a pixel that was on before (R152). -/
theorem blendRows_hit (sprite : Nat → Byte) (x0 y0 n : Nat) (hn : n ≤ 32) (c : Canvas) :
    (Canvas.blendRows sprite x0 y0 n c).hit = true ↔
      c.hit = true ∨ ∃ r < n, ∃ j < 8, (sprite r).getLsbD (7 - j) = true ∧
        getPixel c.fb (rowOf (y0 + r)) (colOf (x0 + j)) = true := by
  induction n with
  | zero => simp [Canvas.blendRows]
  | succ n ih =>
    have hpix : ∀ j, getPixel (Canvas.blendRows sprite x0 y0 n c).fb (rowOf (y0 + n)) (colOf (x0 + j))
        = getPixel c.fb (rowOf (y0 + n)) (colOf (x0 + j)) := fun j => by
      rw [blendRows_pixel _ _ _ _ (by omega)]
      simp [sourceBit, rowDist_rowOf y0 n (by omega)]
    rw [blendRows_succ, blendByte_eq, blendBits_hit _ _ _ 8 (Nat.le_refl 8), ih (by omega)]
    simp only [hpix]
    constructor
    · rintro ((h | ⟨r, hr, h⟩) | ⟨j, hj, h⟩)
      · exact .inl h
      · exact .inr ⟨r, by omega, h⟩
      · exact .inr ⟨n, by omega, j, hj, h⟩
    · rintro (h | ⟨r, hr, j, hj, h⟩)
      · exact .inl (.inl h)
      · by_cases e : r = n
        · subst e; exact .inr ⟨j, hj, h⟩
        · exact .inl (.inr ⟨r, by omega, j, hj, h⟩)

/-! ### The drawing of `DRW` -/

/-- `DRW` changes the framebuffer and `VF` alone. -/
theorem drawSprite_frame (x y : RegIdx) (n : Nibble) (s : State) :
    drawSprite x y n s = { s with fb := (drawSprite x y n s).fb, v := (drawSprite x y n s).v } := rfl

/-- Every pixel after `DRW`. -/
theorem drawSprite_pixel (x y : RegIdx) (n : Nibble) (s : State) (r : Fin 32) (k : Fin 64) :
    getPixel (drawSprite x y n s).fb r k
      = (getPixel s.fb r k ^^
          sourceBit (fun q => memRead s (indexAddr s q)) (getV s x).toNat (getV s y).toNat n.toNat r k) :=
  blendRows_pixel _ _ _ _ (by have := n.isLt; omega) _ r k

/-- `VF` after `DRW`: 1 exactly when a source bit 1 met a pixel that was on (R152). -/
theorem drawSprite_hit (x y : RegIdx) (n : Nibble) (s : State) :
    getV (drawSprite x y n s) 15 = 1 ↔
      ∃ r < n.toNat, ∃ j < 8, (memRead s (indexAddr s r)).getLsbD (7 - j) = true ∧
        getPixel s.fb (rowOf ((getV s y).toNat + r)) (colOf ((getV s x).toNat + j)) = true := by
  have h := blendRows_hit (fun q => memRead s (indexAddr s q)) (getV s x).toNat (getV s y).toNat n.toNat
    (by have := n.isLt; omega) ⟨s.fb, false⟩
  rw [drawSprite, getV_setVF, if_pos rfl, b2i_eq_one, h]
  simp

/-- Every other register keeps its value in `DRW`. -/
theorem drawSprite_getV (x y : RegIdx) (n : Nibble) (s : State) (k : RegIdx) (h : k ≠ 15) :
    getV (drawSprite x y n s) k = getV s k := by
  rw [drawSprite, getV_setVF, if_neg h]; rfl

end Sys2Proof.Laws
end

