-- ==== Sys2Proof/Laws/IndexMemory.lean ====
section
/-! SUPPORT. What the block stores and loads do (`43_index_memory.md`): their frame, each byte and register afterwards, and that
they keep memory canonical. -/

namespace Sys2Proof.Laws

open Sys2Proof.Machine

/-! ### Stores of registers -/

theorem storeRegs_cons (k : RegIdx) (ks : List RegIdx) (s : State) :
    storeRegs (k :: ks) s = ks.foldl (fun t k => memWrite t (indexAddr s k.val) (getV s k)) (memWrite s (indexAddr s k.val) (getV s k)) := rfl

theorem foldStore_frame (ks : List RegIdx) (s t : State) :
    ks.foldl (fun t k => memWrite t (indexAddr s k.val) (getV s k)) t
      = { t with mem := (ks.foldl (fun t k => memWrite t (indexAddr s k.val) (getV s k)) t).mem } := by
  induction ks generalizing t with
  | nil => rfl
  | cons k ks ih => rw [List.foldl_cons, ih]; rfl

theorem foldStore_other (ks : List RegIdx) (s t : State) (a : Nat) (h : ∀ k ∈ ks, ea a ≠ ea (indexAddr s k.val)) :
    memRead (ks.foldl (fun t k => memWrite t (indexAddr s k.val) (getV s k)) t) a = memRead t a := by
  induction ks generalizing t with
  | nil => rfl
  | cons k ks ih =>
    rw [List.foldl_cons, ih _ (fun j hj => h j (by simp [hj])), memRead_memWrite, if_neg (h k (by simp))]

theorem indexAddr_inj (s : State) {j k : RegIdx} (h : ea (indexAddr s j.val) = ea (indexAddr s k.val)) : j = k :=
  Fin.ext (ea_add_inj (by have := j.isLt; omega) (by have := k.isLt; omega) h)

theorem foldStore_same (ks : List RegIdx) (hn : ks.Nodup) (s t : State) (k : RegIdx) (hk : k ∈ ks) :
    memRead (ks.foldl (fun t k => memWrite t (indexAddr s k.val) (getV s k)) t) (indexAddr s k.val) = getV s k := by
  induction ks generalizing t with
  | nil => cases hk
  | cons j ks ih =>
    rw [List.nodup_cons] at hn
    rw [List.foldl_cons]
    by_cases hkj : k ∈ ks
    · exact ih hn.2 _ hkj
    · have hj : k = j := by simpa [hkj] using hk
      subst hj
      rw [foldStore_other _ _ _ _ (fun i hi e => hkj ((indexAddr_inj s (j := k) (k := i) e) ▸ hi)), memRead_memWrite, if_pos rfl]

theorem foldStore_wf (ks : List RegIdx) (s t : State) (h : Memory.wf t.mem) :
    Memory.wf (ks.foldl (fun t k => memWrite t (indexAddr s k.val) (getV s k)) t).mem := by
  induction ks generalizing t with
  | nil => exact h
  | cons k ks ih => rw [List.foldl_cons]; exact ih _ (wf_memWrite t _ _ h)

/-- `STM`'s stores change memory alone. -/
theorem storeRegs_frame (ks : List RegIdx) (s : State) : storeRegs ks s = { s with mem := (storeRegs ks s).mem } :=
  foldStore_frame ks s s

/-- Register `k` of the list stands at `I + k` afterwards. -/
theorem memRead_storeRegs_same (ks : List RegIdx) (hn : ks.Nodup) (s : State) (k : RegIdx) (hk : k ∈ ks) :
    memRead (storeRegs ks s) (indexAddr s k.val) = getV s k := foldStore_same ks hn s s k hk

/-- Every byte outside `I + k` for the listed `k` is unchanged. -/
theorem memRead_storeRegs_other (ks : List RegIdx) (s : State) (a : Nat) (h : ∀ k ∈ ks, ea a ≠ ea (indexAddr s k.val)) :
    memRead (storeRegs ks s) a = memRead s a := foldStore_other ks s s a h

theorem wf_storeRegs (ks : List RegIdx) (s : State) (h : Memory.wf s.mem) : Memory.wf (storeRegs ks s).mem :=
  foldStore_wf ks s s h

/-! ### Loads of registers -/

theorem foldLoad_frame (ks : List RegIdx) (s t : State) :
    ks.foldl (fun t k => setV t k (memRead s (indexAddr s k.val))) t
      = { t with v := (ks.foldl (fun t k => setV t k (memRead s (indexAddr s k.val))) t).v } := by
  induction ks generalizing t with
  | nil => rfl
  | cons k ks ih => rw [List.foldl_cons, ih]; rfl

theorem foldLoad_getV (ks : List RegIdx) (s t : State) (k : RegIdx) :
    getV (ks.foldl (fun t k => setV t k (memRead s (indexAddr s k.val))) t) k
      = if k ∈ ks then memRead s (indexAddr s k.val) else getV t k := by
  induction ks generalizing t with
  | nil => simp
  | cons j ks ih =>
    rw [List.foldl_cons, ih, getV_setV]
    by_cases hk : k ∈ ks
    · simp [hk]
    · by_cases hj : k = j
      · subst hj; simp
      · simp [hk, hj]

/-- `LDM`'s loads change the general registers alone. -/
theorem loadRegs_frame (ks : List RegIdx) (s : State) : loadRegs ks s = { s with v := (loadRegs ks s).v } :=
  foldLoad_frame ks s s

/-- Each register after the loads. -/
theorem getV_loadRegs (ks : List RegIdx) (s : State) (k : RegIdx) :
    getV (loadRegs ks s) k = if k ∈ ks then memRead s (indexAddr s k.val) else getV s k := foldLoad_getV ks s s k

/-! ### Digits -/

/-- `BCD`'s stores change memory alone. -/
theorem storeDigits_frame (b : Byte) (s : State) : storeDigits b s = { s with mem := (storeDigits b s).mem } := rfl

/-- Every byte after the three stores (the three addresses are distinct). -/
theorem memRead_storeDigits (b : Byte) (s : State) (a : Nat) :
    memRead (storeDigits b s) a =
      if ea a = ea (indexAddr s 2) then units b
      else if ea a = ea (indexAddr s 1) then tens b
      else if ea a = ea (indexAddr s 0) then hundreds b
      else memRead s a := by
  simp only [storeDigits, memRead_memWrite]

theorem wf_storeDigits (b : Byte) (s : State) (h : Memory.wf s.mem) : Memory.wf (storeDigits b s).mem :=
  wf_memWrite _ _ _ (wf_memWrite _ _ _ (wf_memWrite _ _ _ h))

/-! ### What the block operations leave alone, field by field -/

@[simp] theorem storeRegs_v (ks : List RegIdx) (s : State) : (storeRegs ks s).v = s.v := by rw [storeRegs_frame]
@[simp] theorem storeRegs_i (ks : List RegIdx) (s : State) : (storeRegs ks s).i = s.i := by rw [storeRegs_frame]
@[simp] theorem storeRegs_pc (ks : List RegIdx) (s : State) : (storeRegs ks s).pc = s.pc := by rw [storeRegs_frame]
@[simp] theorem storeRegs_stack (ks : List RegIdx) (s : State) : (storeRegs ks s).stack = s.stack := by rw [storeRegs_frame]
@[simp] theorem storeRegs_sp (ks : List RegIdx) (s : State) : (storeRegs ks s).sp = s.sp := by rw [storeRegs_frame]
@[simp] theorem storeRegs_dt (ks : List RegIdx) (s : State) : (storeRegs ks s).dt = s.dt := by rw [storeRegs_frame]
@[simp] theorem storeRegs_st (ks : List RegIdx) (s : State) : (storeRegs ks s).st = s.st := by rw [storeRegs_frame]
@[simp] theorem storeRegs_fb (ks : List RegIdx) (s : State) : (storeRegs ks s).fb = s.fb := by rw [storeRegs_frame]
@[simp] theorem storeRegs_key (ks : List RegIdx) (s : State) : (storeRegs ks s).key = s.key := by rw [storeRegs_frame]
@[simp] theorem storeRegs_wait (ks : List RegIdx) (s : State) : (storeRegs ks s).wait = s.wait := by rw [storeRegs_frame]
@[simp] theorem storeRegs_waitReg (ks : List RegIdx) (s : State) : (storeRegs ks s).waitReg = s.waitReg := by rw [storeRegs_frame]
@[simp] theorem storeRegs_fault (ks : List RegIdx) (s : State) : (storeRegs ks s).fault = s.fault := by rw [storeRegs_frame]
@[simp] theorem storeRegs_tacc (ks : List RegIdx) (s : State) : (storeRegs ks s).tacc = s.tacc := by rw [storeRegs_frame]
@[simp] theorem storeRegs_draws (ks : List RegIdx) (s : State) : (storeRegs ks s).draws = s.draws := by rw [storeRegs_frame]

@[simp] theorem loadRegs_i (ks : List RegIdx) (s : State) : (loadRegs ks s).i = s.i := by rw [loadRegs_frame]
@[simp] theorem loadRegs_pc (ks : List RegIdx) (s : State) : (loadRegs ks s).pc = s.pc := by rw [loadRegs_frame]
@[simp] theorem loadRegs_stack (ks : List RegIdx) (s : State) : (loadRegs ks s).stack = s.stack := by rw [loadRegs_frame]
@[simp] theorem loadRegs_sp (ks : List RegIdx) (s : State) : (loadRegs ks s).sp = s.sp := by rw [loadRegs_frame]
@[simp] theorem loadRegs_dt (ks : List RegIdx) (s : State) : (loadRegs ks s).dt = s.dt := by rw [loadRegs_frame]
@[simp] theorem loadRegs_st (ks : List RegIdx) (s : State) : (loadRegs ks s).st = s.st := by rw [loadRegs_frame]
@[simp] theorem loadRegs_fb (ks : List RegIdx) (s : State) : (loadRegs ks s).fb = s.fb := by rw [loadRegs_frame]
@[simp] theorem loadRegs_key (ks : List RegIdx) (s : State) : (loadRegs ks s).key = s.key := by rw [loadRegs_frame]
@[simp] theorem loadRegs_wait (ks : List RegIdx) (s : State) : (loadRegs ks s).wait = s.wait := by rw [loadRegs_frame]
@[simp] theorem loadRegs_waitReg (ks : List RegIdx) (s : State) : (loadRegs ks s).waitReg = s.waitReg := by rw [loadRegs_frame]
@[simp] theorem loadRegs_fault (ks : List RegIdx) (s : State) : (loadRegs ks s).fault = s.fault := by rw [loadRegs_frame]
@[simp] theorem loadRegs_mem (ks : List RegIdx) (s : State) : (loadRegs ks s).mem = s.mem := by rw [loadRegs_frame]
@[simp] theorem loadRegs_tacc (ks : List RegIdx) (s : State) : (loadRegs ks s).tacc = s.tacc := by rw [loadRegs_frame]
@[simp] theorem loadRegs_draws (ks : List RegIdx) (s : State) : (loadRegs ks s).draws = s.draws := by rw [loadRegs_frame]

end Sys2Proof.Laws
end

