-- ==== Sys2Proof/Laws/Exec.lean ====
section
/-! SUPPORT. What executing each instruction answers: the one next state of an instruction that cannot fault, and the cases of
the four that can, so that no proof unfolds a meaning. -/

namespace Sys2Proof.Laws

open Sys2Proof.Machine

/-- A skip changes `pc` alone, to the next instruction or the one after it (R87). -/
theorem skipIf_eq (c : Bool) (s : State) : skipIf c s = { s with pc := if c then s.pc + 4 else s.pc + 2 } := by
  cases c <;> rfl

theorem exec_idle (s : State) : exec .idle s = .next s := rfl
theorem exec_cls (s : State) : exec .cls s = .next (advance { s with fb := clearScreen }) := rfl
theorem exec_jp (nnn : Imm12) (s : State) : exec (.jp nnn) s = .next (setPc s (zextImm nnn)) := rfl
theorem exec_sei (x : RegIdx) (nn : Byte) (s : State) : exec (.sei x nn) s = .next (skipIf (getV s x = nn) s) := rfl
theorem exec_snei (x : RegIdx) (nn : Byte) (s : State) : exec (.snei x nn) s = .next (skipIf (getV s x ≠ nn) s) := rfl
theorem exec_ser (x y : RegIdx) (s : State) : exec (.ser x y) s = .next (skipIf (getV s x = getV s y) s) := rfl
theorem exec_sner (x y : RegIdx) (s : State) : exec (.sner x y) s = .next (skipIf (getV s x ≠ getV s y) s) := rfl
theorem exec_ldi (x : RegIdx) (nn : Byte) (s : State) : exec (.ldi x nn) s = .next (advance (setV s x nn)) := rfl
theorem exec_addi (x : RegIdx) (nn : Byte) (s : State) :
    exec (.addi x nn) s = .next (advance (setV s x (getV s x + nn))) := rfl
theorem exec_mov (x y : RegIdx) (s : State) : exec (.mov x y) s = .next (advance (setV s x (getV s y))) := rfl
theorem exec_or (x y : RegIdx) (s : State) :
    exec (.or x y) s = .next (advance (setV s x (getV s x ||| getV s y))) := rfl
theorem exec_and (x y : RegIdx) (s : State) :
    exec (.and x y) s = .next (advance (setV s x (getV s x &&& getV s y))) := rfl
theorem exec_xor (x y : RegIdx) (s : State) :
    exec (.xor x y) s = .next (advance (setV s x (getV s x ^^^ getV s y))) := rfl
theorem exec_add (x y : RegIdx) (s : State) : exec (.add x y) s =
    .next (advance (setResultThenFlag x (getV s x + getV s y) (carryFlag (getV s x) (getV s y)) s)) := rfl
theorem exec_sub (x y : RegIdx) (s : State) : exec (.sub x y) s = .next (advance (subtract x y s)) := rfl
theorem exec_sub7 (x y : RegIdx) (s : State) : exec (.sub7 x y) s = .next (advance (subtract x y s)) := rfl
theorem exec_shr (x : RegIdx) (s : State) :
    exec (.shr x) s = .next (advance (flagThenShift x (fun b => b >>> 1) s)) := rfl
theorem exec_shl (x : RegIdx) (s : State) :
    exec (.shl x) s = .next (advance (flagThenShift x (fun b => b <<< 1) s)) := rfl
theorem exec_lda (nnn : Imm12) (s : State) : exec (.lda nnn) s = .next (advance (setI s (zextImm nnn))) := rfl
theorem exec_jpv0 (nnn : Imm12) (s : State) :
    exec (.jpv0 nnn) s = .next (setPc s (zextImm nnn + zextByte (getV s 0))) := rfl
theorem exec_rnd (x : RegIdx) (nn : Byte) (s : State) :
    exec (.rnd x nn) s = .next (advance (randomInto (Config.rnd s.draws) x nn s)) := rfl
theorem exec_drw (x y : RegIdx) (n : Nibble) (s : State) :
    exec (.drw x y n) s = .next (advance (drawSprite x y n s)) := rfl
theorem exec_gdt (x : RegIdx) (s : State) : exec (.gdt x) s = .next (advance (setV s x s.dt)) := rfl
theorem exec_wkey (x : RegIdx) (s : State) :
    exec (.wkey x) s = .next (advance { s with wait := true, waitReg := x }) := rfl
theorem exec_sdt (x : RegIdx) (s : State) : exec (.sdt x) s = .next (advance { s with dt := getV s x }) := rfl
theorem exec_sst (x : RegIdx) (s : State) : exec (.sst x) s = .next (advance { s with st := getV s x }) := rfl
theorem exec_adda (x : RegIdx) (s : State) :
    exec (.adda x) s = .next (advance (setI s (s.i + zextByte (getV s x)))) := rfl
theorem exec_font (x : RegIdx) (s : State) :
    exec (.font x) s = .next (advance (setI s (5 * zextByte (getV s x)))) := rfl
theorem exec_bcd (x : RegIdx) (s : State) : exec (.bcd x) s = .next (advance (storeDigits (getV s x) s)) := rfl
theorem exec_stm (x : RegIdx) (s : State) : exec (.stm x) s = .next (advance (storeRegs (regsUpTo x) s)) := rfl
theorem exec_ldm (x : RegIdx) (s : State) : exec (.ldm x) s = .next (advance (loadRegs (regsUpTo x) s)) := rfl

/-- `RET` pops into `pc`, or raises `StackUnderflow` when nothing is held. -/
theorem exec_ret_cases (s : State) :
    (s.sp.val = 0 ∧ exec .ret s = raise .stackUnderflow (encode .ret) s) ∨
    ∃ h : 0 < s.sp.val, exec .ret s = .next (setPc { s with sp := ⟨s.sp.val - 1, by omega⟩ }
      (s.stack[s.sp.val - 1]'(by have := s.sp.isLt; omega))) := by
  change (_ ∧ execRet s = _) ∨ ∃ _, execRet s = _
  rcases popStack_cases s with ⟨h, e⟩ | ⟨h, e⟩
  · exact .inl ⟨h, by rw [execRet, e]⟩
  · exact .inr ⟨h, by rw [execRet, e]⟩

/-- `CALL` pushes `pc + 2` and jumps, or raises `StackOverflow` when the stack is full. -/
theorem exec_call_cases (nnn : Imm12) (s : State) :
    (s.sp.val = 16 ∧ exec (.call nnn) s = raise .stackOverflow (encode (.call nnn)) s) ∨
    ∃ h : s.sp.val < 16, exec (.call nnn) s = .next (setPc { s with
      stack := s.stack.set s.sp.val (s.pc + 2) h, sp := ⟨s.sp.val + 1, by omega⟩ } (zextImm nnn)) := by
  change (_ ∧ execCall nnn s = _) ∨ ∃ _, execCall nnn s = _
  rcases pushStack_cases s (s.pc + 2) with ⟨h, e⟩ | ⟨h, e⟩
  · exact .inl ⟨h, by rw [execCall, e]⟩
  · exact .inr ⟨h, by rw [execCall, e]⟩

/-- `SKP` and `SKNP` skip on the state of the named key, or raise `KeyIndexRange`. -/
theorem skipOnKey_cases (down : Bool) (w : Word) (x : RegIdx) (s : State) :
    (16 ≤ (getV s x).toNat ∧ skipOnKey down w x s = raise .keyIndexRange w s) ∨
    ∃ h : (getV s x).toNat < 16, skipOnKey down w x s = .next (skipIf (getKey s ⟨(getV s x).toNat, h⟩ = down) s) := by
  rcases keyOperand_cases (getV s x) with ⟨h, e⟩ | ⟨h, e⟩
  · exact .inr ⟨h, by rw [skipOnKey, e]⟩
  · exact .inl ⟨h, by rw [skipOnKey, e]⟩

theorem exec_skp (x : RegIdx) (s : State) : exec (.skp x) s = skipOnKey true (encode (.skp x)) x s := rfl
theorem exec_sknp (x : RegIdx) (s : State) : exec (.sknp x) s = skipOnKey false (encode (.sknp x)) x s := rfl

end Sys2Proof.Laws
end

