-- ==== Sys2Proof/Laws/PerInstr.lean ====
section
/-! SUPPORT. Statements made of every instruction, one lemma per constructor: its operands fit their fields, and its word
matches its row of the opcode map (`30_encoding.md` R61, R65). -/

namespace Sys2Proof.Laws

theorem and_encNNN (op : Nibble) (nnn : Imm12) : encNNN op nnn &&& 0xF000 = encNNN op 0 := by
  have h : encNNN op nnn &&& 0xF000 = (op ++ nnn) &&& (BitVec.allOnes 4 ++ 0#12) := rfl
  rw [h, BitVec.and_append, BitVec.and_allOnes, BitVec.and_zero]
  rfl

theorem and_encXNN (op : Nibble) (x : RegIdx) (nn : Byte) : encXNN op x nn &&& 0xF000 = encXNN op 0 0 := by
  have h : encXNN op x nn &&& 0xF000 = (op ++ regBits x ++ nn) &&& (BitVec.allOnes 4 ++ 0#4 ++ 0#8) := rfl
  rw [h, BitVec.and_append, BitVec.and_append, BitVec.and_allOnes, BitVec.and_zero, BitVec.and_zero]
  rfl

theorem and_encXS (op : Nibble) (x : RegIdx) (ss : Byte) : encXNN op x ss &&& 0xF0FF = encXNN op 0 ss := by
  have h : encXNN op x ss &&& 0xF0FF = (op ++ regBits x ++ ss) &&& (BitVec.allOnes 4 ++ 0#4 ++ BitVec.allOnes 8) := rfl
  rw [h, BitVec.and_append, BitVec.and_append, BitVec.and_allOnes, BitVec.and_zero, BitVec.and_allOnes]
  rfl

theorem and_encXYN (op : Nibble) (x y : RegIdx) (n : Nibble) : encXYN op x y n &&& 0xF000 = encXYN op 0 0 0 := by
  have h : encXYN op x y n &&& 0xF000
      = (op ++ regBits x ++ regBits y ++ n) &&& (BitVec.allOnes 4 ++ 0#4 ++ 0#4 ++ 0#4) := rfl
  rw [h, BitVec.and_append, BitVec.and_append, BitVec.and_append, BitVec.and_allOnes, BitVec.and_zero, BitVec.and_zero,
    BitVec.and_zero]
  rfl

theorem and_encXYS (op : Nibble) (x y : RegIdx) (n : Nibble) : encXYN op x y n &&& 0xF00F = encXYN op 0 0 n := by
  have h : encXYN op x y n &&& 0xF00F
      = (op ++ regBits x ++ regBits y ++ n) &&& (BitVec.allOnes 4 ++ 0#4 ++ 0#4 ++ BitVec.allOnes 4) := rfl
  rw [h, BitVec.and_append, BitVec.and_append, BitVec.and_append, BitVec.and_allOnes, BitVec.and_zero, BitVec.and_zero,
    BitVec.and_allOnes]
  rfl

end Sys2Proof.Laws

/-- Every operand fits its field (R61): the host's case split is over the constructors. -/
def Sys2Proof.Laws.FieldsFit.Statement (i : Sys2Proof.Instr) : Prop := i.wellFormed = true

/-- The encoded word matches the instruction's own row of the opcode map (R65). -/
def Sys2Proof.Laws.RowMatches.Statement (i : Sys2Proof.Instr) : Prop := i.row.holds (Sys2Proof.encode i) = true

namespace Sys2Proof.Laws

/-- One more operand that fits its field. -/
theorem fits_cons {w v : Nat} {l : List (Nat × Nat)} (h : v < 2 ^ w) (hl : l.all (fun f => decide (f.2 < 2 ^ f.1)) = true) :
    ((w, v) :: l).all (fun f => decide (f.2 < 2 ^ f.1)) = true := by
  rw [List.all_cons, hl, Bool.and_true]; exact decide_eq_true h

/-- What a row's match is, once the masked word is known. -/
theorem rowMatches_of {i : Instr} {w : Word} (h : encode i &&& i.row.mask = w) (hw : w = i.row.bits) :
    RowMatches.Statement i := decide_eq_true (h.trans hw)

theorem FieldsFit.idle : FieldsFit.Statement .idle := rfl

theorem FieldsFit.cls : FieldsFit.Statement .cls := rfl

theorem FieldsFit.ret : FieldsFit.Statement .ret := rfl

theorem FieldsFit.jp (nnn : Imm12) : FieldsFit.Statement (.jp nnn) := fits_cons nnn.isLt rfl

theorem FieldsFit.call (nnn : Imm12) : FieldsFit.Statement (.call nnn) := fits_cons nnn.isLt rfl

theorem FieldsFit.sei (x : RegIdx) (nn : Byte) : FieldsFit.Statement (.sei x nn) := fits_cons x.isLt (fits_cons nn.isLt rfl)

theorem FieldsFit.snei (x : RegIdx) (nn : Byte) : FieldsFit.Statement (.snei x nn) := fits_cons x.isLt (fits_cons nn.isLt rfl)

theorem FieldsFit.ser (x : RegIdx) (y : RegIdx) : FieldsFit.Statement (.ser x y) := fits_cons x.isLt (fits_cons y.isLt rfl)

theorem FieldsFit.ldi (x : RegIdx) (nn : Byte) : FieldsFit.Statement (.ldi x nn) := fits_cons x.isLt (fits_cons nn.isLt rfl)

theorem FieldsFit.addi (x : RegIdx) (nn : Byte) : FieldsFit.Statement (.addi x nn) := fits_cons x.isLt (fits_cons nn.isLt rfl)

theorem FieldsFit.mov (x : RegIdx) (y : RegIdx) : FieldsFit.Statement (.mov x y) := fits_cons x.isLt (fits_cons y.isLt rfl)

theorem FieldsFit.or (x : RegIdx) (y : RegIdx) : FieldsFit.Statement (.or x y) := fits_cons x.isLt (fits_cons y.isLt rfl)

theorem FieldsFit.and (x : RegIdx) (y : RegIdx) : FieldsFit.Statement (.and x y) := fits_cons x.isLt (fits_cons y.isLt rfl)

theorem FieldsFit.xor (x : RegIdx) (y : RegIdx) : FieldsFit.Statement (.xor x y) := fits_cons x.isLt (fits_cons y.isLt rfl)

theorem FieldsFit.add (x : RegIdx) (y : RegIdx) : FieldsFit.Statement (.add x y) := fits_cons x.isLt (fits_cons y.isLt rfl)

theorem FieldsFit.sub (x : RegIdx) (y : RegIdx) : FieldsFit.Statement (.sub x y) := fits_cons x.isLt (fits_cons y.isLt rfl)

theorem FieldsFit.shr (x : RegIdx) : FieldsFit.Statement (.shr x) := fits_cons x.isLt rfl

theorem FieldsFit.sub7 (x : RegIdx) (y : RegIdx) : FieldsFit.Statement (.sub7 x y) := fits_cons x.isLt (fits_cons y.isLt rfl)

theorem FieldsFit.shl (x : RegIdx) : FieldsFit.Statement (.shl x) := fits_cons x.isLt rfl

theorem FieldsFit.sner (x : RegIdx) (y : RegIdx) : FieldsFit.Statement (.sner x y) := fits_cons x.isLt (fits_cons y.isLt rfl)

theorem FieldsFit.lda (nnn : Imm12) : FieldsFit.Statement (.lda nnn) := fits_cons nnn.isLt rfl

theorem FieldsFit.jpv0 (nnn : Imm12) : FieldsFit.Statement (.jpv0 nnn) := fits_cons nnn.isLt rfl

theorem FieldsFit.rnd (x : RegIdx) (nn : Byte) : FieldsFit.Statement (.rnd x nn) := fits_cons x.isLt (fits_cons nn.isLt rfl)

theorem FieldsFit.drw (x : RegIdx) (y : RegIdx) (n : Nibble) : FieldsFit.Statement (.drw x y n) := fits_cons x.isLt (fits_cons y.isLt (fits_cons n.isLt rfl))

theorem FieldsFit.skp (x : RegIdx) : FieldsFit.Statement (.skp x) := fits_cons x.isLt rfl

theorem FieldsFit.sknp (x : RegIdx) : FieldsFit.Statement (.sknp x) := fits_cons x.isLt rfl

theorem FieldsFit.gdt (x : RegIdx) : FieldsFit.Statement (.gdt x) := fits_cons x.isLt rfl

theorem FieldsFit.wkey (x : RegIdx) : FieldsFit.Statement (.wkey x) := fits_cons x.isLt rfl

theorem FieldsFit.sdt (x : RegIdx) : FieldsFit.Statement (.sdt x) := fits_cons x.isLt rfl

theorem FieldsFit.sst (x : RegIdx) : FieldsFit.Statement (.sst x) := fits_cons x.isLt rfl

theorem FieldsFit.adda (x : RegIdx) : FieldsFit.Statement (.adda x) := fits_cons x.isLt rfl

theorem FieldsFit.font (x : RegIdx) : FieldsFit.Statement (.font x) := fits_cons x.isLt rfl

theorem FieldsFit.bcd (x : RegIdx) : FieldsFit.Statement (.bcd x) := fits_cons x.isLt rfl

theorem FieldsFit.stm (x : RegIdx) : FieldsFit.Statement (.stm x) := fits_cons x.isLt rfl

theorem FieldsFit.ldm (x : RegIdx) : FieldsFit.Statement (.ldm x) := fits_cons x.isLt rfl

theorem RowMatches.idle : RowMatches.Statement .idle := rfl

theorem RowMatches.cls : RowMatches.Statement .cls := rfl

theorem RowMatches.ret : RowMatches.Statement .ret := rfl

theorem RowMatches.jp (nnn : Imm12) : RowMatches.Statement (.jp nnn) := rowMatches_of (and_encNNN _ _) rfl

theorem RowMatches.call (nnn : Imm12) : RowMatches.Statement (.call nnn) := rowMatches_of (and_encNNN _ _) rfl

theorem RowMatches.sei (x : RegIdx) (nn : Byte) : RowMatches.Statement (.sei x nn) := rowMatches_of (and_encXNN _ _ _) rfl

theorem RowMatches.snei (x : RegIdx) (nn : Byte) : RowMatches.Statement (.snei x nn) := rowMatches_of (and_encXNN _ _ _) rfl

theorem RowMatches.ser (x : RegIdx) (y : RegIdx) : RowMatches.Statement (.ser x y) := rowMatches_of (and_encXYN _ _ _ _) rfl

theorem RowMatches.ldi (x : RegIdx) (nn : Byte) : RowMatches.Statement (.ldi x nn) := rowMatches_of (and_encXNN _ _ _) rfl

theorem RowMatches.addi (x : RegIdx) (nn : Byte) : RowMatches.Statement (.addi x nn) := rowMatches_of (and_encXNN _ _ _) rfl

theorem RowMatches.mov (x : RegIdx) (y : RegIdx) : RowMatches.Statement (.mov x y) := rowMatches_of (and_encXYS _ _ _ _) rfl

theorem RowMatches.or (x : RegIdx) (y : RegIdx) : RowMatches.Statement (.or x y) := rowMatches_of (and_encXYS _ _ _ _) rfl

theorem RowMatches.and (x : RegIdx) (y : RegIdx) : RowMatches.Statement (.and x y) := rowMatches_of (and_encXYS _ _ _ _) rfl

theorem RowMatches.xor (x : RegIdx) (y : RegIdx) : RowMatches.Statement (.xor x y) := rowMatches_of (and_encXYS _ _ _ _) rfl

theorem RowMatches.add (x : RegIdx) (y : RegIdx) : RowMatches.Statement (.add x y) := rowMatches_of (and_encXYS _ _ _ _) rfl

theorem RowMatches.sub (x : RegIdx) (y : RegIdx) : RowMatches.Statement (.sub x y) := rowMatches_of (and_encXYS _ _ _ _) rfl

theorem RowMatches.shr (x : RegIdx) : RowMatches.Statement (.shr x) := rowMatches_of (and_encXYS _ _ _ _) rfl

theorem RowMatches.sub7 (x : RegIdx) (y : RegIdx) : RowMatches.Statement (.sub7 x y) := rowMatches_of (and_encXYS _ _ _ _) rfl

theorem RowMatches.shl (x : RegIdx) : RowMatches.Statement (.shl x) := rowMatches_of (and_encXYS _ _ _ _) rfl

theorem RowMatches.sner (x : RegIdx) (y : RegIdx) : RowMatches.Statement (.sner x y) := rowMatches_of (and_encXYN _ _ _ _) rfl

theorem RowMatches.lda (nnn : Imm12) : RowMatches.Statement (.lda nnn) := rowMatches_of (and_encNNN _ _) rfl

theorem RowMatches.jpv0 (nnn : Imm12) : RowMatches.Statement (.jpv0 nnn) := rowMatches_of (and_encNNN _ _) rfl

theorem RowMatches.rnd (x : RegIdx) (nn : Byte) : RowMatches.Statement (.rnd x nn) := rowMatches_of (and_encXNN _ _ _) rfl

theorem RowMatches.drw (x : RegIdx) (y : RegIdx) (n : Nibble) : RowMatches.Statement (.drw x y n) := rowMatches_of (and_encXYN _ _ _ _) rfl

theorem RowMatches.skp (x : RegIdx) : RowMatches.Statement (.skp x) := rowMatches_of (and_encXS _ _ _) rfl

theorem RowMatches.sknp (x : RegIdx) : RowMatches.Statement (.sknp x) := rowMatches_of (and_encXS _ _ _) rfl

theorem RowMatches.gdt (x : RegIdx) : RowMatches.Statement (.gdt x) := rowMatches_of (and_encXS _ _ _) rfl

theorem RowMatches.wkey (x : RegIdx) : RowMatches.Statement (.wkey x) := rowMatches_of (and_encXS _ _ _) rfl

theorem RowMatches.sdt (x : RegIdx) : RowMatches.Statement (.sdt x) := rowMatches_of (and_encXS _ _ _) rfl

theorem RowMatches.sst (x : RegIdx) : RowMatches.Statement (.sst x) := rowMatches_of (and_encXS _ _ _) rfl

theorem RowMatches.adda (x : RegIdx) : RowMatches.Statement (.adda x) := rowMatches_of (and_encXS _ _ _) rfl

theorem RowMatches.font (x : RegIdx) : RowMatches.Statement (.font x) := rowMatches_of (and_encXS _ _ _) rfl

theorem RowMatches.bcd (x : RegIdx) : RowMatches.Statement (.bcd x) := rowMatches_of (and_encXS _ _ _) rfl

theorem RowMatches.stm (x : RegIdx) : RowMatches.Statement (.stm x) := rowMatches_of (and_encXS _ _ _) rfl

theorem RowMatches.ldm (x : RegIdx) : RowMatches.Statement (.ldm x) := rowMatches_of (and_encXS _ _ _) rfl

end Sys2Proof.Laws
end

