-- ==== Sys2Proof/Laws/Step.lean ====
section
/-! SUPPORT. What one `step` can do (`40_engine_step.md` R80), said once, and where an instruction is fetched from. -/

namespace Sys2Proof.Laws

open Sys2Proof.Machine

theorem halted_iff (s : State) : halted s = true ↔ s.fault ≠ none := by
  simp [halted, Option.isSome_iff_ne_none]

theorem halted_false_iff (s : State) : halted s = false ↔ s.fault = none := by
  simp [halted]

/-- With both gates open a step decodes the fetched word and executes it, or raises `InvalidInstruction`. -/
theorem step_open (s : State) (hf : s.fault = none) (hw : s.wait = false) :
    step s = match decodeWord (fetchWord s) with
      | some i => exec i s
      | none => raise .invalidInstruction (fetchWord s) s := by
  have h1 : ¬ halted s = true := by simp [halted, hf]
  have h2 : ¬ suspended s = true := by simp [suspended, hw]
  unfold step
  rw [if_neg h1, if_neg h2]
  exact if_pos (inRange_config _ _)

/-- Everything a step can do: nothing while halted or suspended, else one instruction or the decode fault. -/
theorem step_cases (s : State) :
    (s.fault ≠ none ∧ step s = .next s) ∨
    (s.fault = none ∧ s.wait = true ∧ step s = .next s) ∨
    (s.fault = none ∧ s.wait = false ∧ ∃ i, decodeWord (fetchWord s) = some i ∧ step s = exec i s) ∨
    (s.fault = none ∧ s.wait = false ∧ decodeWord (fetchWord s) = none ∧
      step s = raise .invalidInstruction (fetchWord s) s) := by
  by_cases hf : s.fault = none
  · cases hw : s.wait
    · right; right
      have h := step_open s hf hw
      cases hd : decodeWord (fetchWord s) with
      | some i => exact .inl ⟨hf, rfl, i, rfl, by rw [h, hd]⟩
      | none => exact .inr ⟨hf, rfl, rfl, by rw [h, hd]⟩
    · exact .inr (.inl ⟨hf, rfl, by simp [step, suspended, hw]⟩)
  · exact .inl ⟨hf, by simp [step, (halted_iff s).2 hf]⟩

/-- The fetched word is the two fetched bytes, high byte first (R43). -/
theorem fetchWord_eq (s : State) : fetchWord s = wordOfBytes (memRead s s.pc.toNat) (memRead s (s.pc.toNat + 1)) := rfl

/-- Two states with the same memory and `pc` fetch the same word. -/
theorem fetchWord_congr {s t : State} (hm : s.mem = t.mem) (hp : s.pc = t.pc) : fetchWord s = fetchWord t := by
  simp only [fetchWord, memRead, hm, hp]

/-- The word placed at `pc` is the word fetched. -/
theorem fetchWord_withFetchWord (s : State) (nbits w : Nat) :
    fetchWord (s.withFetchWord nbits w) = BitVec.ofNat 16 (w % 2 ^ nbits) := by
  have hne : ea s.pc.toNat ≠ ea (s.pc.toNat + 1) := fun h => by
    simp only [ea, memSize_eq] at h; omega
  rw [fetchWord_eq]
  have hpc : (s.withFetchWord nbits w).pc = s.pc := rfl
  have hmem : ∀ a, memRead (s.withFetchWord nbits w) a =
      memRead (memWrite (memWrite s s.pc.toNat (highByte (BitVec.ofNat 16 (w % 2 ^ nbits)))) (s.pc.toNat + 1)
        (lowByte (BitVec.ofNat 16 (w % 2 ^ nbits)))) a := fun _ => rfl
  rw [hpc, hmem, hmem, memRead_memWrite, memRead_memWrite, memRead_memWrite, if_neg hne, if_pos rfl, if_pos rfl,
    wordOfBytes_bytes]

@[simp] theorem withFetchWord_fault (s : State) (nbits w : Nat) : (s.withFetchWord nbits w).fault = none := rfl
@[simp] theorem withFetchWord_wait (s : State) (nbits w : Nat) : (s.withFetchWord nbits w).wait = false := rfl

end Sys2Proof.Laws
end

