-- ==== Sys2Proof/Laws/Transactions.lean ====
section
/-! SUPPORT. What the other transactions can do, each said once (`60_exceptions.md`, `70_reset_and_hazards.md`). -/

namespace Sys2Proof.Laws

open Sys2Proof.Machine

theorem timerDown_toNat (b : Byte) : (timerDown b).toNat = b.toNat - 1 := by
  unfold timerDown
  split
  · next h =>
    have h' : 0 < b.toNat := h
    have := b.isLt
    rw [BitVec.toNat_sub]
    show (2 ^ 8 - 1 + b.toNat) % 2 ^ 8 = _
    omega
  · next h =>
    have h' : ¬ 0 < b.toNat := h
    omega

theorem timerInterval_eq : Config.timerInterval = 1000 := rfl

/-- `tick_timers`: nothing while halted, else one decrement and a new interval, or only more time on the gate. -/
theorem tickTimers_cases (dt : Nat) (s : State) :
    (s.fault ≠ none ∧ tickTimers dt s = s) ∨
    (s.fault = none ∧ Config.timerInterval ≤ s.tacc + dt ∧ tickTimers dt s = { timerDecrement s with tacc := 0 }) ∨
    (s.fault = none ∧ s.tacc + dt < Config.timerInterval ∧ tickTimers dt s = { s with tacc := s.tacc + dt }) := by
  by_cases hf : s.fault = none
  · have hh := (halted_false_iff s).2 hf
    by_cases ht : Config.timerInterval ≤ s.tacc + dt
    · exact .inr (.inl ⟨hf, ht, by simp [tickTimers, hh, ht]⟩)
    · exact .inr (.inr ⟨hf, by omega, by simp [tickTimers, hh, ht]⟩)
  · exact .inl ⟨hf, by simp [tickTimers, (halted_iff s).2 hf]⟩

/-- `key_down`: nothing while halted; the table; and the resume when suspended. -/
theorem keyDown_cases (k : KeyCode) (s : State) :
    (s.fault ≠ none ∧ keyDown k s = s) ∨
    (s.fault = none ∧ s.wait = false ∧ keyDown k s = setKey s k true) ∨
    (s.fault = none ∧ s.wait = true ∧ keyDown k s = { setV (setKey s k true) s.waitReg (zextKey k) with wait := false }) := by
  by_cases hf : s.fault = none
  · have hh := (halted_false_iff s).2 hf
    cases hw : s.wait
    · exact .inr (.inl ⟨hf, rfl, by simp [keyDown, hh, suspended, hw]⟩)
    · exact .inr (.inr ⟨hf, rfl, by simp [keyDown, hh, suspended, hw]⟩)
  · exact .inl ⟨hf, by simp [keyDown, (halted_iff s).2 hf]⟩

/-- `key_up`: nothing while halted, else the table alone. -/
theorem keyUp_cases (k : KeyCode) (s : State) :
    (s.fault ≠ none ∧ keyUp k s = s) ∨ (s.fault = none ∧ keyUp k s = setKey s k false) := by
  by_cases hf : s.fault = none
  · exact .inr ⟨hf, by simp [keyUp, (halted_false_iff s).2 hf]⟩
  · exact .inl ⟨hf, by simp [keyUp, (halted_iff s).2 hf]⟩

/-- `load`: nothing while halted or when refused, else the image bytes. -/
theorem load_cases (bs : List Byte) (s : State) :
    (s.fault ≠ none ∧ load bs s = s) ∨
    (s.fault = none ∧ maxImage < bs.length ∧ load bs s = s) ∨
    (s.fault = none ∧ bs.length ≤ maxImage ∧ load bs s = storeBytes Config.params.programOffset bs s) := by
  by_cases hf : s.fault = none
  · have hh := (halted_false_iff s).2 hf
    by_cases hl : maxImage < bs.length
    · exact .inr (.inl ⟨hf, hl, by simp [load, hh, hl]⟩)
    · exact .inr (.inr ⟨hf, by omega, by simp [load, hh, hl]⟩)
  · exact .inl ⟨hf, by simp [load, (halted_iff s).2 hf]⟩

theorem storeBytes_frame (a : Nat) (bs : List Byte) (s : State) :
    storeBytes a bs s = { s with mem := (storeBytes a bs s).mem } := by
  induction bs generalizing a s with
  | nil => rfl
  | cons b bs ih => rw [storeBytes, ih]; rfl

theorem wf_storeBytes (a : Nat) (bs : List Byte) (s : State) (h : Memory.wf s.mem) : Memory.wf (storeBytes a bs s).mem := by
  induction bs generalizing a s with
  | nil => exact h
  | cons b bs ih => exact ih _ _ (wf_memWrite s a b h)

/-- A byte below the place of a block that fits in memory is unchanged by storing it. -/
theorem memRead_storeBytes_below (a : Nat) (bs : List Byte) (s : State) (c : Nat) (hc : c < a)
    (hfit : a + bs.length ≤ Config.memSize) : memRead (storeBytes a bs s) c = memRead s c := by
  induction bs generalizing a s with
  | nil => rfl
  | cons b bs ih =>
    simp only [List.length_cons] at hfit
    rw [storeBytes, ih (a + 1) _ (by omega) (by omega), memRead_memWrite, if_neg]
    simp only [ea, memSize_eq] at *
    omega

/-- Each byte after a block that fits in memory is stored: the block's own, and every other as before. -/
theorem memRead_storeBytes (a : Nat) (bs : List Byte) (s : State) (c : Nat) (hc : c < Config.memSize)
    (hfit : a + bs.length ≤ Config.memSize) :
    memRead (storeBytes a bs s) c = if h : a ≤ c ∧ c < a + bs.length then bs[c - a]'(by omega) else memRead s c := by
  induction bs generalizing a s with
  | nil =>
    rw [dif_neg (by simp)]; rfl
  | cons b bs ih =>
    simp only [List.length_cons] at hfit
    by_cases hlt : c < a
    · rw [memRead_storeBytes_below _ _ _ _ hlt (by simpa using hfit), dif_neg (by omega)]
    · by_cases he : c = a
      · subst he
        rw [storeBytes, memRead_storeBytes_below _ _ _ _ (Nat.lt_succ_self _) (by omega), memRead_memWrite, if_pos rfl,
          dif_pos (by simp)]
        simp
      · rw [storeBytes, ih (a + 1) _ (by omega)]
        have hne : ea c ≠ ea a := by simp only [ea, memSize_eq] at *; omega
        by_cases hin : a + 1 ≤ c ∧ c < a + 1 + bs.length
        · rw [dif_pos hin, dif_pos (by simp only [List.length_cons]; omega)]
          have : c - a = (c - (a + 1)) + 1 := by omega
          simp only [this, List.getElem_cons_succ]
        · rw [dif_neg hin, dif_neg (by simp only [List.length_cons]; omega), memRead_memWrite, if_neg hne]

end Sys2Proof.Laws
end

