-- ==== Sys2Proof/Machine/Assembler.lean ====
section
/-! DEFINITION. The assembler notation (`30_encoding.md` R69, R70) and the display of a word (R71): what a text means, what bytes
its statements stand for, and how a word is written back. It has no effect on the machine (D20); the spec's programs are written
in it. What R69 leaves open of the text (blank lines, the letters of a label, the case of digits) is chosen in log 22. -/

namespace Sys2Proof

/-! ### Statements to bytes -/

/-- How many bytes a statement takes: 2 for an instruction or `.word` (R69, R70). -/
def AsmStmt.size : AsmStmt → Nat
  | .instr _ _ => 2
  | .bytes vs => vs.length
  | .word _ => 2

/-- The address of every label, the first statement standing at `a` (R69). -/
def asmLabels : Nat → List AsmLine → List (String × Nat)
  | _, [] => []
  | a, l :: ls =>
    let rest := asmLabels (a + l.stmt.size) ls
    match l.label with
    | some name => (name, a) :: rest
    | none => rest

/-- An operand as a number; a label is its address, "which must be below 4096" (R69). -/
def AsmOperand.value (labels : List (String × Nat)) : AsmOperand → Option Nat
  | .reg k => some k
  | .imm v => some v
  | .label name => (labels.lookup name).filter (· < 4096)

/-- The operand fields of a word: the first register in bits 11:8, the second in 7:4, an immediate from bit 0 (R61, R62). -/
def placeOperands (labels : List (String × Nat)) : Nat → List OperandKind → List AsmOperand → Option Word
  | regPos, .reg :: ks, o :: os => do
    let v ← o.value labels
    let w ← placeOperands labels (regPos - 4) ks os
    return BitVec.ofNat 16 (v <<< regPos) ||| w
  | regPos, _ :: ks, o :: os => do
    let v ← o.value labels
    let w ← placeOperands labels regPos ks os
    return BitVec.ofNat 16 v ||| w
  | _, _, _ => some 0

/-- The bytes of one statement, words high byte first; `none` where the assembler refuses the line (R69, R70). -/
def AsmStmt.assemble (labels : List (String × Nat)) (st : AsmStmt) : Option (List Byte) :=
  if st.wellFormed then
    match st with
    | .instr m os => do
      let ks ← asmSignature.lookup m
      let row ← opcodeMap.find? (·.mnemonic = m)
      let fields ← placeOperands labels 8 ks os
      return bytesOfWord (row.bits ||| fields)
    | .bytes vs => some (vs.map (BitVec.ofNat 8))
    | .word w => some (bytesOfWord (BitVec.ofNat 16 w))
  else none

/-- The program image of a list of lines, the first assembled at `PROGRAM_OFFSET` (R69); a label names one statement. -/
def assemble (lines : List AsmLine) : Option (List Byte) := do
  let labels := asmLabels Config.params.programOffset lines
  if (labels.map Prod.fst).Nodup then
    let parts ← lines.mapM (fun l => l.stmt.assemble labels)
    return parts.flatten
  else none

/-! ### Text to statements (R69, R70) -/

/-- The pieces of a text between occurrences of a character. -/
def splitAtChar (c : Char) : List Char → List (List Char)
  | [] => [[]]
  | d :: ds =>
    match splitAtChar c ds with
    | [] => [[d]]
    | p :: ps => if d = c then [] :: p :: ps else (d :: p) :: ps

/-- A character that only separates. -/
def isBlank (c : Char) : Bool := c = ' ' || c = '\t' || c = '\r'

/-- The text without blanks at either end. -/
def trimBlanks (cs : List Char) : List Char := ((cs.dropWhile isBlank).reverse.dropWhile isBlank).reverse

/-- The value of a digit in a base. -/
def digitValue (base : Nat) (c : Char) : Option Nat :=
  let n := c.toNat
  let v := if 48 ≤ n && n ≤ 57 then n - 48 else if 65 ≤ n && n ≤ 70 then n - 55 else if 97 ≤ n && n ≤ 102 then n - 87 else 16
  if v < base then some v else none

/-- A number from its digits, `acc` standing before them. -/
def digitsValue (base acc : Nat) : List Char → Option Nat
  | [] => some acc
  | c :: cs => do
    let v ← digitValue base c
    digitsValue base (acc * base + v) cs

/-- "An immediate is a decimal number or `0x` followed by hexadecimal digits" (R69). -/
def parseNumber : List Char → Option Nat
  | '0' :: 'x' :: c :: cs => digitsValue 16 0 (c :: cs)
  | c :: cs => digitsValue 10 0 (c :: cs)
  | [] => none

/-- A label: letters, digits and underscores, no digit first (log 22). -/
def isLabelText : List Char → Bool
  | [] => false
  | c :: cs => (c.isAlpha || c = '_') && cs.all fun d => d.isAlphanum || d = '_'

/-- "A register operand is `V` followed by one hexadecimal digit" (R69); a number; or a label. -/
def parseOperand (cs : List Char) : Option AsmOperand :=
  match cs with
  | ['V', c] =>
    match digitValue 16 c with
    | some k => some (.reg k)
    | none => if isLabelText cs then some (.label (String.ofList cs)) else none
  | _ =>
    match parseNumber cs with
    | some v => some (.imm v)
    | none => if isLabelText cs then some (.label (String.ofList cs)) else none

/-- The operands after a mnemonic, separated by commas; none when nothing is left. -/
def parseOperands (cs : List Char) : List (List Char) :=
  if (trimBlanks cs).isEmpty then [] else (splitAtChar ',' cs).map trimBlanks

/-- A statement from its text: a directive of R70, or a mnemonic and operands. -/
def parseStmt (cs : List Char) : Option AsmStmt := do
  let word := String.ofList (cs.takeWhile fun c => !isBlank c)
  let operands := parseOperands (cs.dropWhile fun c => !isBlank c)
  if word = ".byte" then
    let vs ← operands.mapM parseNumber
    return .bytes vs
  else if word = ".word" then
    match operands with
    | [o] => do
      let v ← parseNumber o
      return .word v
    | _ => none
  else
    let os ← operands.mapM parseOperand
    return .instr word os

/-- A line's label, if any, and the text after it. -/
def parseLabel (cs : List Char) : Option (Option String × List Char) :=
  match splitAtChar ':' cs with
  | [whole] => some (none, trimBlanks whole)
  | [name, rest] => if isLabelText (trimBlanks name) then some (some (String.ofList (trimBlanks name)), trimBlanks rest) else none
  | _ => none

/-- One line: `[label:] MNEMONIC [operand ...] [; comment]` (R69). `some none` is a line with no statement. -/
def parseLine (cs : List Char) : Option (Option AsmLine) :=
  let code := trimBlanks (cs.takeWhile (· ≠ ';'))
  if code.isEmpty then some none
  else do
    let (label, rest) ← parseLabel code
    let stmt ← parseStmt rest
    return some { label := label, stmt := stmt }

/-- The statements of a text, one a line. -/
def parseText (text : String) : Option (List AsmLine) := do
  let lines ← (splitAtChar '\n' text.toList).mapM parseLine
  return lines.filterMap id

/-- The program image of a text; `none` where the assembler refuses a line. -/
def assembleText (text : String) : Option (List Byte) := do
  let lines ← parseText text
  assemble lines

/-! ### Words to text (R71) -/

/-- A hexadecimal digit, upper case. -/
def hexDigit (n : Nat) : Char := Char.ofNat (if n % 16 < 10 then 48 + n % 16 else 55 + n % 16)

/-- `n` hexadecimal digits. -/
def hexDigits : Nat → Nat → List Char
  | 0, _ => []
  | n + 1, v => hexDigits n (v / 16) ++ [hexDigit v]

/-- A decimal number below 1000, without leading zeros. -/
def decimalDigits (v : Nat) : List Char :=
  let d := fun n => Char.ofNat (48 + n % 10)
  if v < 10 then [d v] else if v < 100 then [d (v / 10), d v] else [d (v / 100), d (v / 10), d v]

/-- The operands of an instruction as text: registers, then an immediate (decimal; `nnn` in hexadecimal: log 22). -/
def Instr.operandTexts (i : Instr) : List (List Char) :=
  let reg := fun (x : RegIdx) => ['V', hexDigit x.val]
  let addr := fun (a : Imm12) => ['0', 'x'] ++ hexDigits 3 a.toNat
  match i with
  | .idle | .cls | .ret => []
  | .jp nnn | .call nnn | .lda nnn | .jpv0 nnn => [addr nnn]
  | .sei x nn | .snei x nn | .ldi x nn | .addi x nn | .rnd x nn => [reg x, decimalDigits nn.toNat]
  | .ser x y | .sner x y => [reg x, reg y]
  | .mov x y | .or x y | .and x y | .xor x y | .add x y | .sub x y | .sub7 x y => [reg x, reg y]
  | .shr x | .shl x => [reg x]
  | .drw x y n => [reg x, reg y, decimalDigits n.toNat]
  | .skp x | .sknp x | .gdt x | .wkey x | .sdt x | .sst x => [reg x]
  | .adda x | .font x | .bcd x | .stm x | .ldm x => [reg x]

/-- An instruction in the notation of R69. -/
def Instr.text (i : Instr) : String :=
  match i.operandTexts with
  | [] => i.row.mnemonic
  | o :: os => i.row.mnemonic ++ " " ++ String.ofList (os.foldl (fun t p => t ++ [',', ' '] ++ p) o)

/-- The display of a word (R71): "four hex digits followed by the statement"; "an illegal word is shown as `.word 0x....`". -/
def showWord (w : Word) : String :=
  match decodeWord w with
  | some i => String.ofList (hexDigits 4 w.toNat) ++ "  " ++ i.text
  | none => ".word 0x" ++ String.ofList (hexDigits 4 w.toNat)

end Sys2Proof
end

