-- ==== Sys2Proof/Tests/Slice0.lean ====
section
/-! SUPPORT. The model's own tests. Expected results are the spec's: worked examples E1 to E10 and vectors S, K, A, F, M, W, T, L of
`95_test_vectors.md`, and hand calculation from the rule named beside a test. -/

namespace Sys2Proof.Tests

open Sys2Proof Sys2Proof.Machine Sys2Proof.Safety

/-! ### Helpers -/

/-- What `f` sees in the next state, `none` where there is none. -/
def seen {α : Type} (r : Result) (f : State → α) : Option α :=
  match r with
  | .next t => some (f t)
  | .fault _ => none
  | .refused _ => none

/-- The reset state with the word `w` at `pc` = 0x200. -/
def at200 (w : Nat) : State := State.reset.withFetchWord 16 w

/-- `s` with register `x` set. -/
def reg (x : RegIdx) (b : Byte) (s : State) : State := setV s x b

/-- `s` with `I` set. -/
def idx (w : Word) (s : State) : State := setI s w

/-- `s` with bytes at consecutive addresses. -/
def bytesAt (a : Nat) (bs : List Byte) (s : State) : State := storeBytes a bs s

/-- `s` with the return addresses `ws` held. -/
def held (ws : List Word) (s : State) : State := ws.foldl (fun t w => (pushStack t w).getD t) s

/-- `s` with 16 return addresses held. -/
def full (s : State) : State := held (List.replicate 16 0x1235) s

/-- A fault record, for a halted state. -/
def rec8008 : FaultRecord := ⟨.invalidInstruction, 0x8008, 8⟩

/-! ### Well-formedness: an ill-formed term for each check -/

theorem test_wf_params : Config.params.wellFormed = true := by decide
theorem test_illformed_addrBits_low : { Config.params with addrBits := 11 }.addrBitsOk = false := by decide
theorem test_illformed_addrBits_high : { Config.params with addrBits := 17 }.addrBitsOk = false := by decide
theorem test_illformed_font : { Config.params with nGlyphs := 17 }.fontOk = false := by decide
theorem test_illformed_offset_low : { Config.params with programOffset := 79 }.offsetOk = false := by decide
theorem test_illformed_offset_high : { Config.params with programOffset := 4096 }.offsetOk = false := by decide
theorem test_illformed_timer : { Config.params with timerHz := 7 }.timerOk = false := by decide
theorem test_illformed_params :
    { Config.params with addrBits := 11 }.wellFormed = false ∧ { Config.params with nGlyphs := 17 }.wellFormed = false ∧
    { Config.params with programOffset := 4096 }.wellFormed = false ∧ { Config.params with timerHz := 0 }.wellFormed = false := by decide
theorem test_wf_instr : (Instr.drw 15 15 15).wellFormed = true := by decide
theorem test_wf_stmt : (AsmStmt.instr "DRW" [.reg 15, .reg 0, .imm 15]).wellFormed = true := by decide
theorem test_illformed_register : (AsmStmt.instr "SHR" [.reg 16]).wellFormed = false := by decide
theorem test_illformed_nn : (AsmStmt.instr "LDI" [.reg 0, .imm 256]).wellFormed = false := by decide
theorem test_illformed_nnn : (AsmStmt.instr "JP" [.imm 4096]).wellFormed = false := by decide
theorem test_illformed_n : (AsmStmt.instr "DRW" [.reg 0, .reg 1, .imm 16]).wellFormed = false := by decide
theorem test_illformed_kind : (AsmStmt.instr "MOV" [.reg 0, .imm 1]).wellFormed = false := by decide
theorem test_illformed_count : (AsmStmt.instr "MOV" [.reg 0]).wellFormed = false := by decide
theorem test_illformed_mnemonic : (AsmStmt.instr "NOP" []).wellFormed = false := by decide
theorem test_illformed_byte : (AsmStmt.bytes [0, 256]).wellFormed = false := by decide
theorem test_illformed_word : (AsmStmt.word 65536).wellFormed = false := by decide

/-! ### Decoding: a word of each instruction, written out from its encoding (`30_encoding.md` R62, R65) -/

/-- A word from its four hex digits `op`, `x`, `y`, `n` (R61). -/
def digits (op x y n : Nibble) : Word := op ++ x ++ y ++ n

theorem test_decode_idle : decodeWord (digits 0x0 0x0 0x0 0x0) = some .idle := by decide
theorem test_decode_cls : decodeWord (digits 0x0 0x0 0xE 0x0) = some .cls := by decide
theorem test_decode_ret : decodeWord (digits 0x0 0x0 0xE 0xE) = some .ret := by decide
theorem test_decode_jp : decodeWord (digits 0x1 0xA 0xB 0xD) = some (.jp 0xABD) := by decide
theorem test_decode_call : decodeWord (digits 0x2 0x2 0x0 0xE) = some (.call 0x20E) := by decide
theorem test_decode_sei : decodeWord (digits 0x3 0xA 0x4 0x2) = some (.sei 10 0x42) := by decide
theorem test_decode_snei : decodeWord (digits 0x4 0xA 0x4 0x2) = some (.snei 10 0x42) := by decide
theorem test_decode_ser : decodeWord (digits 0x5 0x1 0x2 0xF) = some (.ser 1 2) := by decide
theorem test_decode_ldi : decodeWord (digits 0x6 0xB 0xF 0xE) = some (.ldi 11 0xFE) := by decide
theorem test_decode_addi : decodeWord (digits 0x7 0x3 0x0 0x1) = some (.addi 3 1) := by decide
theorem test_decode_mov : decodeWord (digits 0x8 0x1 0x2 0x0) = some (.mov 1 2) := by decide
theorem test_decode_or : decodeWord (digits 0x8 0x1 0x2 0x1) = some (.or 1 2) := by decide
theorem test_decode_and : decodeWord (digits 0x8 0x1 0x2 0x2) = some (.and 1 2) := by decide
theorem test_decode_xor : decodeWord (digits 0x8 0x1 0x2 0x3) = some (.xor 1 2) := by decide
theorem test_decode_add : decodeWord (digits 0x8 0x1 0x2 0x4) = some (.add 1 2) := by decide
theorem test_decode_sub : decodeWord (digits 0x8 0x1 0x2 0x5) = some (.sub 1 2) := by decide
theorem test_decode_shr : decodeWord (digits 0x8 0x1 0x2 0x6) = some (.shr 1) := by decide
theorem test_decode_sub7 : decodeWord (digits 0x8 0x1 0x2 0x7) = some (.sub7 1 2) := by decide
theorem test_decode_shl : decodeWord (digits 0x8 0x1 0x2 0xE) = some (.shl 1) := by decide
theorem test_decode_sner : decodeWord (digits 0x9 0x1 0x2 0x7) = some (.sner 1 2) := by decide
theorem test_decode_lda : decodeWord (digits 0xA 0xF 0x1 0x2) = some (.lda 0xF12) := by decide
theorem test_decode_jpv0 : decodeWord (digits 0xB 0x2 0xF 0xE) = some (.jpv0 0x2FE) := by decide
theorem test_decode_rnd : decodeWord (digits 0xC 0x1 0x0 0xF) = some (.rnd 1 0x0F) := by decide
theorem test_decode_drw : decodeWord (digits 0xD 0x1 0x2 0x5) = some (.drw 1 2 5) := by decide
theorem test_decode_skp : decodeWord (digits 0xE 0x1 0x9 0xE) = some (.skp 1) := by decide
theorem test_decode_sknp : decodeWord (digits 0xE 0x1 0xA 0x1) = some (.sknp 1) := by decide
theorem test_decode_gdt : decodeWord (digits 0xF 0x4 0x0 0x7) = some (.gdt 4) := by decide
theorem test_decode_wkey : decodeWord (digits 0xF 0x3 0x0 0xA) = some (.wkey 3) := by decide
theorem test_decode_sdt : decodeWord (digits 0xF 0x3 0x1 0x5) = some (.sdt 3) := by decide
theorem test_decode_sst : decodeWord (digits 0xF 0x5 0x1 0x8) = some (.sst 5) := by decide
theorem test_decode_adda : decodeWord (digits 0xF 0x3 0x1 0xE) = some (.adda 3) := by decide
theorem test_decode_font : decodeWord (digits 0xF 0x2 0x2 0x9) = some (.font 2) := by decide
theorem test_decode_bcd : decodeWord (digits 0xF 0x0 0x3 0x3) = some (.bcd 0) := by decide
theorem test_decode_stm : decodeWord (digits 0xF 0x1 0x5 0x5) = some (.stm 1) := by decide
theorem test_decode_ldm : decodeWord (digits 0xF 0x2 0x6 0x5) = some (.ldm 2) := by decide

/-- The illegal words `95_test_vectors.md` names, family by family. -/
theorem test_illegal_words :
    ([0x0001, 0x8128, 0x8129, 0x812A, 0x812B, 0x812C, 0x812D, 0x812F, 0xE000, 0xE19F, 0xE1A0, 0xE1FF] ++
      [0xF000, 0xF100, 0xF108, 0xF01F, 0xF075, 0xF085, 0xF0FF, 0xF090] : List Word).all (fun w => decodeWord w = none) = true := by
  decide
/-- The first byte is the high byte (R45), and one byte is no instruction (R60). -/
theorem test_decode_bytes : decode [0x60, 0x0A, 0x61] = .ok (.ldi 0 10, [0x61]) ∧ decode [0x60] = .error .truncated ∧
    decode [0x80, 0x08] = .error (.invalidInstruction 0x8008) := by decide
/-- Words emitted for the instructions of program P3 (`95_test_vectors.md`). -/
theorem test_encode_p3 : [Instr.ldi 0 254, .lda 0x300, .bcd 0, .ldm 2, .add 0 1, .adda 3, .stm 0].map encode =
    [0x60FE, 0xA300, 0xF033, 0xF265, 0x8014, 0xF31E, 0xF055] := by decide
theorem test_table_word : decodeTableWord 16 0xD012 = some (.drw 0 1 2) ∧ decodeTableWord 16 0x8008 = none ∧
    decodeTableWord 32 0xD012 = none := by decide
theorem test_map_has_35_rows : opcodeMap.length = 35 ∧ (opcodeMap.map OpRow.mnemonic).Nodup := by decide

/-! ### The assembler (R69, R70) -/

/-- Program P1 of `95_test_vectors.md`: `60 0A 61 05 80 14 00 00`. -/
theorem test_assemble_p1 : assemble [⟨none, .instr "LDI" [.reg 0, .imm 10]⟩, ⟨none, .instr "LDI" [.reg 1, .imm 5]⟩,
    ⟨none, .instr "ADD" [.reg 0, .reg 1]⟩, ⟨none, .instr "IDLE" []⟩] =
    some [0x60, 0x0A, 0x61, 0x05, 0x80, 0x14, 0x00, 0x00] := by decide
/-- A label is its address, here of P4's sprite: `A2 04 D0 12 C0 80`. -/
theorem test_assemble_label : assemble [⟨none, .instr "LDA" [.label "s"]⟩, ⟨none, .instr "DRW" [.reg 0, .reg 1, .imm 2]⟩,
    ⟨some "s", .bytes [0xC0, 0x80]⟩] = some [0xA2, 0x04, 0xD0, 0x12, 0xC0, 0x80] := by decide
theorem test_assemble_refuses : assemble [⟨none, .instr "JP" [.label "missing"]⟩] = none ∧
    assemble [⟨none, .instr "LDI" [.reg 0, .imm 256]⟩] = none := by decide
/-- A labelled, commented line of program P2: `CALL 0x20E` is `22 0E`. -/
theorem test_parse_line : parseLine "loop: CALL 0x20E   ; loop:".toList =
    some (some ⟨some "loop", .instr "CALL" [.imm 0x20E]⟩) := by decide
theorem test_parse_operands : parseLine "  DRW VF, V1,15".toList = some (some ⟨none, .instr "DRW" [.reg 15, .reg 1, .imm 15]⟩) ∧
    parseLine ".byte 0xC0, 128".toList = some (some ⟨none, .bytes [0xC0, 128]⟩) ∧
    parseLine ".word 0x8008".toList = some (some ⟨none, .word 0x8008⟩) ∧ parseLine "; nothing".toList = some none := by decide
theorem test_parse_refuses : parseLine "LDI V0, 0x".toList = none ∧ parseLine "9a: CLS".toList = none ∧
    assembleText "LDI VG, 1" = none := by decide
/-- The tail of program P4, `D0 12 00 00 C0 80`. -/
theorem test_assemble_text : assembleText "DRW V0, V1, 2\nIDLE\n.byte 0xC0, 0x80" = some [0xD0, 0x12, 0x00, 0x00, 0xC0, 0x80] := by
  decide
/-- R71's example, an address operand and an illegal word. -/
theorem test_show_word : showWord 0x8014 = "8014  ADD V0, V1" ∧ showWord 0x220E = "220E  CALL 0x20E" ∧
    showWord 0x60FE = "60FE  LDI V0, 254" ∧ showWord 0x8008 = ".word 0x8008" := by decide

/-! ### Steps (vector numbers of `95_test_vectors.md` in the names) -/

theorem test_S1_halted : seen (step { State.reset with fault := some rec8008, pc := 0x208 }) id =
    some { State.reset with fault := some rec8008, pc := 0x208 } := by decide
theorem test_S2_suspended : seen (step (bytesAt 0x202 [0xFF, 0xFF] { State.reset with wait := true, waitReg := 3, pc := 0x202 }))
    (fun t => (t.fault, t.pc, t.wait)) = some (none, 0x202, true) := by decide
theorem test_S3_idle : seen (step (at200 0x0000)) id = some (at200 0x0000) := by decide
theorem test_S4_illegal : seen (step (at200 0x0001)) id =
    some { at200 0x0001 with fault := some ⟨.invalidInstruction, 0x0001, 0⟩ } := by decide
theorem test_S6_odd_pc : seen (step (bytesAt 0x201 [0x61, 0x07] { State.reset with pc := 0x201 })) (fun t => (getV t 1, t.pc)) =
    some (7, 0x203) := by decide
theorem test_S7_pc_wraps : seen (step (bytesAt 0xFFE [0x60, 0x01] { State.reset with pc := 0xFFFE })) (fun t => (getV t 0, t.pc)) =
    some (1, 0) := by decide
theorem test_S8_fetch_wraps : seen (step (bytesAt 0xFFF [0x60] { State.reset with pc := 0xFFF })) (fun t => (getV t 0, t.pc)) =
    some (0xF0, 0x1001) := by decide
theorem test_S9_offset_wraps : seen (step { State.reset with pc := 0 }) (fun t => t.fault) =
    some (some ⟨.invalidInstruction, 0xF090, 0xFE00⟩) := by decide

theorem test_K1_jp : seen (step (at200 0x1ABD)) (fun t => t.pc) = some 0x0ABD := by decide
theorem test_K3_call : seen (step (at200 0x220E)) (fun t => (t.stack[0], t.sp, t.pc)) = some (0x202, 1, 0x20E) := by decide
theorem test_K5_call_full : seen (step (full (at200 0x2300))) id =
    some { full (at200 0x2300) with fault := some ⟨.stackOverflow, 0x2300, 0⟩ } := by decide
theorem test_K6_ret : seen (step (held [0x206] (at200 0x00EE))) (fun t => (t.sp, t.pc, t.stack[0])) = some (0, 0x206, 0x206) := by decide
theorem test_K7_ret_empty : seen (step (at200 0x00EE)) id =
    some { at200 0x00EE with fault := some ⟨.stackUnderflow, 0x00EE, 0⟩ } := by decide
theorem test_K9_sei : seen (step (reg 10 0x42 (at200 0x3A42))) (fun t => t.pc) = some 0x204 := by decide
theorem test_K10_sei : seen (step (reg 10 0x43 (at200 0x3A42))) (fun t => t.pc) = some 0x202 := by decide
theorem test_K11_snei : seen (step (reg 10 0x42 (at200 0x4A42))) (fun t => t.pc) = some 0x202 := by decide
theorem test_K12_snei : seen (step (reg 10 0x43 (at200 0x4A42))) (fun t => t.pc) = some 0x204 := by decide
theorem test_K14_ser : seen (step (reg 1 7 (reg 2 8 (at200 0x5120)))) (fun t => t.pc) = some 0x202 := by decide
theorem test_K15_ser : seen (step (reg 1 7 (reg 2 7 (at200 0x512F)))) (fun t => t.pc) = some 0x204 := by decide
theorem test_K17_sner : seen (step (reg 1 7 (reg 2 8 (at200 0x9120)))) (fun t => t.pc) = some 0x204 := by decide
theorem test_K18_sner : seen (step (reg 1 7 (reg 2 7 (at200 0x9120)))) (fun t => t.pc) = some 0x202 := by decide
theorem test_K21_jpv0 : seen (step (reg 0 0xFF (at200 0xBFFF))) (fun t => t.pc) = some 0x10FE := by decide
theorem test_K22_jpv0 : seen (step (reg 2 0x55 (at200 0xB2FF))) (fun t => t.pc) = some 0x2FF := by decide

theorem test_A1_ldi : seen (step (at200 0x6BFF)) (fun t => (getV t 11, t.pc)) = some (0xFF, 0x202) := by decide
theorem test_A2_addi : seen (step (reg 3 0xFF (at200 0x7301))) (fun t => (getV t 3, getV t 15)) = some (0, 0) := by decide
theorem test_A4_mov : seen (step (reg 2 0x33 (at200 0x8120))) (fun t => (getV t 1, getV t 2)) = some (0x33, 0x33) := by decide
theorem test_A5_or : seen (step (reg 1 0x0F (reg 2 0xF0 (reg 15 1 (at200 0x8121))))) (fun t => (getV t 1, getV t 15)) =
    some (0xFF, 1) := by decide
theorem test_A6_and : seen (step (reg 1 0x3C (reg 2 0x0F (at200 0x8122)))) (fun t => getV t 1) = some 0x0C := by decide
theorem test_A7_xor : seen (step (reg 1 0xFF (reg 2 0x0F (at200 0x8123)))) (fun t => getV t 1) = some 0xF0 := by decide
theorem test_A10_add : seen (step (reg 1 200 (reg 2 100 (at200 0x8124)))) (fun t => (getV t 1, getV t 15)) = some (44, 1) := by decide
theorem test_F3_add : seen (step (reg 1 0xF0 (reg 15 0x20 (at200 0x81F4)))) (fun t => (getV t 1, getV t 15)) = some (0x10, 1) := by decide
theorem test_A14_sub : seen (step (reg 1 3 (reg 2 5 (at200 0x8125)))) (fun t => (getV t 1, getV t 15)) = some (0xFE, 1) := by decide
theorem test_F6_sub : seen (step (reg 15 9 (reg 1 1 (at200 0x8F15)))) (fun t => getV t 15) = some 0 := by decide
theorem test_A17_sub7 : seen (step (reg 1 5 (reg 2 3 (at200 0x8127)))) (fun t => (getV t 1, getV t 15)) = some (2, 0) := by decide
theorem test_A18_sub7 : seen (step (reg 1 3 (reg 2 5 (at200 0x8127)))) (fun t => (getV t 1, getV t 15)) = some (0xFE, 1) := by decide
theorem test_A20_shr : seen (step (reg 1 0x80 (reg 2 0xFF (at200 0x8126)))) (fun t => (getV t 1, getV t 15, getV t 2)) =
    some (0x40, 0, 0xFF) := by decide
theorem test_F9_shr : seen (step (reg 15 3 (at200 0x8F06))) (fun t => getV t 15) = some 0 := by decide
theorem test_A21_shl : seen (step (reg 1 0x81 (at200 0x810E))) (fun t => (getV t 1, getV t 15)) = some (2, 1) := by decide
theorem test_F11_shl : seen (step (reg 15 3 (at200 0x8F0E))) (fun t => getV t 15) = some 2 := by decide
/-- A24 with the random byte 0xA7. -/
theorem test_A24_rnd : getV (randomInto 0xA7 1 0x0F State.reset) 1 = 7 := by decide
/-- A25: whatever the free byte is. -/
theorem test_A25_rnd : seen (step (at200 0xC100)) (fun t => (getV t 1, t.draws)) = some (0, 1) := by
  have h : (Config.rnd 0 &&& 0 : Byte) = 0 := BitVec.and_zero
  show some ((Config.rnd 0 &&& 0 : Byte), 1) = _
  rw [h]

theorem test_M1_lda : seen (step (idx 0x1234 (at200 0xAFFF))) (fun t => t.i) = some 0x0FFF := by decide
theorem test_M3_adda : seen (step (idx 0xFFFF (reg 3 2 (at200 0xF31E)))) (fun t => (t.i, getV t 15)) = some (1, 0) := by decide
theorem test_M4_adda : seen (step (idx 0x0FFF (reg 3 1 (at200 0xF31E)))) (fun t => (t.i, getV t 15)) = some (0x1000, 0) := by decide
theorem test_M5_font : seen (step (reg 2 0x0A (at200 0xF229))) (fun t => t.i) = some 0x32 := by decide
theorem test_M7_font : seen (step (reg 2 0xFF (at200 0xF229))) (fun t => t.i) = some 0x4FB := by decide
theorem test_M9_bcd : seen (step (idx 0x300 (reg 0 254 (at200 0xF033))))
    (fun t => (memRead t 0x300, memRead t 0x301, memRead t 0x302, t.i)) = some (2, 5, 4, 0x300) := by decide
theorem test_M13_bcd : seen (step (idx 0xFFF (reg 0 123 (at200 0xF033))))
    (fun t => (memRead t 0xFFF, memRead t 0, memRead t 1, memRead t 2)) = some (1, 2, 3, 0x90) := by decide
theorem test_M14_stm : seen (step (idx 0x400 (reg 0 0xAA (reg 1 0xBB (reg 2 0xCC (at200 0xF155))))))
    (fun t => (memRead t 0x400, memRead t 0x401, memRead t 0x402, t.i)) = some (0xAA, 0xBB, 0, 0x400) := by decide
theorem test_M22_stm : seen (step (idx 0x200 (reg 0 0x12 (at200 0xF055))))
    (fun t => (t.pc, fetchWord { t with pc := 0x200 })) = some (0x202, 0x1255) := by decide
theorem test_M19_ldm : seen (step (idx 0x300 (reg 3 0x77 (bytesAt 0x300 [2, 5, 4, 9] (at200 0xF265)))))
    (fun t => (getV t 0, getV t 1, getV t 2, getV t 3, t.i)) = some (2, 5, 4, 0x77, 0x300) := by decide
theorem test_M20_ldm : seen (step (at200 0xF065)) (fun t => getV t 0) = some 0xF0 := by decide

theorem test_W1_cls : seen (step (reg 15 1 { at200 0x00E0 with fb := setPixel clearScreen 3 5 true }))
    (fun t => (getPixel t.fb 3 5, getV t 15, t.pc)) = some (false, 1, 0x202) := by decide
theorem test_W8_drw : seen (step (idx 0x300 (reg 1 31 (bytesAt 0x300 [0x80, 0x80] (at200 0xD012)))))
    (fun t => (getPixel t.fb 31 0, getPixel t.fb 0 0, getPixel t.fb 1 0, getV t 15)) = some (true, true, false, 0) := by decide
theorem test_W14_drw : seen (step (idx 0x300 (reg 15 10 (bytesAt 0x300 [0x80]
    { at200 0xDF11 with fb := setPixel clearScreen 0 11 true }))))
    (fun t => (getPixel t.fb 0 10, getPixel t.fb 0 11, getV t 15)) = some (true, true, 0) := by decide

theorem test_T1_gdt : seen (step { at200 0xF407 with dt := 6 }) (fun t => (getV t 4, t.dt)) = some (6, 6) := by decide
theorem test_T2_sdt : seen (step (reg 3 7 (at200 0xF315))) (fun t => (t.dt, t.st)) = some (7, 0) := by decide
theorem test_T3_sst : seen (step (reg 5 0x1E (at200 0xF518))) (fun t => (t.dt, t.st)) = some (0, 0x1E) := by decide
theorem test_T16_skp : seen (step (reg 1 4 (setKey (at200 0xE19E) 4 true))) (fun t => t.pc) = some 0x204 := by decide
theorem test_T20_skp : seen (step (reg 1 16 (at200 0xE19E))) (fun t => (t.fault, t.pc)) =
    some (some ⟨.keyIndexRange, 0xE19E, 0⟩, 0x200) := by decide
theorem test_T19_sknp : seen (step (reg 1 4 (setKey (at200 0xE1A1) 4 true))) (fun t => t.pc) = some 0x202 := by decide
theorem test_T21_sknp : seen (step (reg 1 0xFF (at200 0xE1A1))) (fun t => (t.fault, t.pc)) =
    some (some ⟨.keyIndexRange, 0xE1A1, 0⟩, 0x200) := by decide
theorem test_T22_wkey : seen (step (setKey (at200 0xF30A) 3 true)) (fun t => (t.wait, t.waitReg, t.pc, getV t 3)) =
    some (true, 3, 0x202, 0) := by decide

/-! ### The other transactions -/

theorem test_T4_decrement : (timerDecrement { State.reset with dt := 2, st := 1 }).dt = 1 ∧
    (timerDecrement { State.reset with dt := 2, st := 1 }).st = 0 ∧ (timerDecrement State.reset).dt = 0 := by decide
/-- T8: the third of three ticks of 0.4 of an interval decrements. -/
theorem test_T8_gate : ((tickTimers 400 { State.reset with dt := 5, tacc := 800 }).tacc,
    (tickTimers 400 { State.reset with dt := 5, tacc := 800 }).dt,
    (tickTimers 400 { State.reset with dt := 5, tacc := 400 }).dt) = (0, 4, 5) := by decide
theorem test_T9_one_decrement : (tickTimers 3000 { State.reset with dt := 5 }).dt = 4 := by decide
theorem test_T13_resume : (getV (keyDown 15 (reg 3 0x99 { State.reset with wait := true, waitReg := 3 })) 3,
    (keyDown 15 { State.reset with wait := true, waitReg := 3 }).wait,
    getKey (keyDown 15 { State.reset with wait := true, waitReg := 3 }) 15) = (0x0F, false, true) := by decide
theorem test_T14_keyUp : (keyUp 4 (setKey { State.reset with wait := true } 4 true)).wait = true ∧
    getKey (keyUp 4 (setKey { State.reset with wait := true } 4 true)) 4 = false := by decide
theorem test_L1_reset : resetCore (full (reg 3 9 (bytesAt 0 [1] { State.reset with fault := some rec8008 }))) = State.reset ∧
    memRead State.reset 0 = 0xF0 ∧ memRead State.reset 79 = 0x80 ∧ memRead State.reset 80 = 0 := by decide
theorem test_L5_load : fetchWord (load [0x12] State.reset) = 0x1200 ∧ maxImage = 3584 := by decide
theorem test_outputs : outputs { State.reset with st := 3, fault := some ⟨.keyIndexRange, 0xE19E, 8⟩ } =
    { fb := clearScreen, snd := 3, waiting := false, fault := some (4, 0xE19E, 8) } ∧ tone State.reset = false := by decide
theorem test_untimed : (untimedDecrement { State.reset with dt := 1 }).dt = 0 ∧
    (untimedDecrement { State.reset with dt := 1, fault := some rec8008 }).dt = 1 := by decide
/-- R196: one request is its transaction, none does nothing, two are outside the interface. -/
theorem test_ports : respond { keyReq := true, keyIsDown := true, keyCode := 4 } State.reset = .next (keyDown 4 State.reset) ∧
    respond {} State.reset = .next State.reset ∧ respond { rst := true, stepReq := true } State.reset = .refused .outsideHostContract ∧
    respond { loadReq := true, loadLen := 1, loadData := [0x12, 0x34] } State.reset = .next (load [0x12] State.reset) :=
  ⟨rfl, rfl, rfl, rfl⟩
/-- D2's alternative: an access that reaches 4096 faults before any write, one that ends at 4095 does not. -/
theorem test_policy_fault : inRange .fault 0xFFE 2 = true ∧ inRange .fault 0xFFF 2 = false ∧ inRange .fault 0xFFFF 0 = true ∧
    seen (access .fault 0xF155 0xFFF 2 State.reset (reg 0 1 State.reset)) (fun t => (getV t 0, t.fault)) =
      some (0, some ⟨.memoryOutOfRange, 0xF155, 0⟩) := by decide
/-- A write of what an unlisted address reads as removes the cell. -/
theorem test_canonical : (memWrite (memWrite State.reset 0x300 7) 0x300 0).mem = [] ∧ (memWrite State.reset 0 0xF0).mem = [] ∧
    Memory.wf (memWrite (memWrite State.reset 0x300 7) 0x10 1).mem := by decide

/-! ### Witnesses: for each statement with hypotheses, a concrete case that meets them, clause by clause -/

theorem witness_WordIsAnInstructionExactlyByItsRow : (Instr.cls.row ∈ opcodeMap ∧ Instr.cls.row.holds 0x00E0 = true) ∧
    opcodeMap.all (fun r => !r.holds 0x00E1) = true := by decide
/-- The words on either side of each boundary of R66. -/
theorem witness_IllegalWords : ([0x0001, 0x00DF, 0x00E1, 0x00ED, 0x00EF, 0x0FFF, 0x8008, 0x800D, 0x800F, 0xE09D, 0xE09F] ++
      [0xE0A0, 0xE0A2, 0xF006, 0xF008, 0xF00B, 0xF064, 0xF066, 0xFFFF] : List Word).all (fun w => decodeWord w = none) = true ∧
    ([0x0000, 0x00E0, 0x00EE, 0x1000, 0x7FFF, 0x8000, 0x8007, 0x800E, 0x9000, 0xDFFF, 0xE09E, 0xEFA1, 0xF007, 0xFF65] :
      List Word).all (fun w => decodeWord w ≠ none) = true := by decide
theorem witness_StepRunsTheDecodedInstruction : (at200 0x600A).fault = none ∧ (at200 0x600A).wait = false ∧
    decode (fetchBytes (at200 0x600A) ++ []) = .ok (.ldi 0 10, []) := by decide
theorem witness_IllegalWord : (at200 0x8008).fault = none ∧ (at200 0x8008).wait = false ∧
    decodeWord (fetchWord (at200 0x8008)) = none := by decide
/-- One state for each ground of a fault, and one step that records none; the boundaries are `SP` 16, 0 and `V[x]` 16. -/
theorem witness_FaultsArePrecise :
    seen (step (at200 0x8008)) (fun t => decide (t.fault ≠ none)) = some true ∧
    seen (step (full (at200 0x2300))) (fun t => decide (t.fault ≠ none)) = some true ∧ (full (at200 0x2300)).sp.val = 16 ∧
    seen (step (at200 0x00EE)) (fun t => decide (t.fault ≠ none)) = some true ∧
    seen (step (reg 0 16 (at200 0xE09E))) (fun t => decide (t.fault ≠ none)) = some true ∧
    seen (step (reg 0 16 (at200 0xE0A1))) (fun t => decide (t.fault ≠ none)) = some true ∧
    seen (step (reg 0 15 (at200 0xE0A1))) (fun t => t.fault) = some none := by decide
theorem witness_DefaultAdvance : (∃ t, exec .cls State.reset = .next t ∧ setsPc .cls = false ∧ isSkip .cls = false) ∧
    (∃ t, exec (.sei 0 0) State.reset = .next t ∧ setsPc (.sei 0 0) = false ∧ isSkip (.sei 0 0) = true ∧ t.pc = State.reset.pc + 4) ∧
    (∃ t, exec (.sei 0 1) State.reset = .next t ∧ isSkip (.sei 0 1) = true ∧ t.pc = State.reset.pc + 2) ∧
    (∃ t, exec (.skp 0) (reg 0 16 State.reset) = .next t ∧ isSkip (.skp 0) = true ∧ t.pc = State.reset.pc) :=
  ⟨⟨_, rfl, rfl, rfl⟩, ⟨_, rfl, rfl, rfl, rfl⟩, ⟨_, rfl, rfl, rfl⟩, ⟨_, rfl, rfl, rfl⟩⟩
theorem witness_Idle : EndedIdle State.reset := ⟨rfl, rfl, by decide⟩
/-- Each of the four ways to be stationary that an open machine and a closed one have, and JPV0 to itself. -/
theorem witness_Stationary : step (at200 0x1200) = .next (at200 0x1200) ∧ step (at200 0xB200) = .next (at200 0xB200) ∧
    step State.reset = .next State.reset ∧ (at200 0x1202).fault = none ∧ seen (step (at200 0x1202)) (fun t => t.pc) = some 0x202 :=
  ⟨rfl, rfl, rfl, rfl, by decide⟩
theorem witness_Return : 0 < (held [0x206] State.reset).sp.val ∧ 0 < (full State.reset).sp.val ∧ State.reset.sp.val = 0 := by decide
theorem witness_Call : State.reset.sp.val < 16 ∧ (held (List.replicate 15 0) State.reset).sp.val = 15 ∧
    (full State.reset).sp.val = 16 := by decide
/-- For the statements on the arithmetic, logic, shift and random instructions: `x` other than `VF`, a bystander register, and
`x = VF` itself. -/
theorem witness_BystanderRegister : (1 : RegIdx) ≠ 15 ∧ (2 : RegIdx) ≠ 1 ∧ (2 : RegIdx) ≠ 15 ∧
    (∃ t, exec (.add 1 2) State.reset = .next t) ∧ (∃ t, exec (.shr 15) State.reset = .next t) :=
  ⟨by decide, by decide, by decide, ⟨_, rfl⟩, ⟨_, rfl⟩⟩
theorem witness_StoreBlocks : (0 : RegIdx) ≤ 0 ∧ (15 : RegIdx) ≤ 15 ∧
    (∀ k, k ≤ (1 : RegIdx) → ea 0x402 ≠ ea (indexAddr (idx 0x400 State.reset) k.val)) ∧
    (∀ k, k < 3 → ea 0x303 ≠ ea (indexAddr (idx 0x300 State.reset) k)) := by decide
/-- `LDM` after `STM` over the same block, other registers between. -/
theorem witness_LoadUndoesStore : ∃ t u, exec (.stm 2) (idx 0xFFF (reg 1 7 State.reset)) = .next t ∧
    exec (.ldm 2) { t with v := Vector.replicate 16 0 } = .next u ∧ getV u 1 = 7 :=
  ⟨_, _, rfl, rfl, by decide⟩
/-- A pixel that the sprite reaches across both edges, one it does not reach, and a collision. -/
theorem witness_Draw : ((0 : Fin 32).val = ((getV (reg 1 31 State.reset) 1).toNat + 1) % 32 ∧ (1 : Nat) < (2 : Nibble).toNat ∧
      (0 : Fin 64).val = ((getV (reg 0 63 State.reset) 0).toNat + 1) % 64) ∧
    (∀ r < 2, ∀ j < 8, ¬ ((2 : Fin 32).val = ((getV (reg 1 31 State.reset) 1).toNat + r) % 32 ∧
      (0 : Fin 64).val = ((getV (reg 0 63 State.reset) 0).toNat + j) % 64)) ∧
    seen (exec (.drw 0 1 1) (idx 0x300 (bytesAt 0x300 [0x80] { State.reset with fb := setPixel clearScreen 0 0 true })))
      (fun t => getV t 15) = some 1 := by decide
theorem witness_DrawTwice : ∃ t u, exec (.drw 0 1 1) State.reset = .next t ∧ exec (.drw 0 1 1) t = .next u ∧
    (0 : RegIdx) ≠ 15 ∧ (1 : RegIdx) ≠ 15 ∧ getV u 15 = 1 := ⟨_, _, rfl, rfl, by decide, by decide, by decide⟩
theorem witness_ClearThenEmptySprite : ∃ t u, (∀ r < (15 : Nibble).toNat, memRead (idx 0x300 State.reset) (indexAddr (idx 0x300 State.reset) r) = 0) ∧
    exec .cls (idx 0x300 State.reset) = .next t ∧ exec (.drw 0 1 15) t = .next u := ⟨_, _, by decide, rfl, rfl⟩
theorem witness_WaitForKey : State.reset.fault = none ∧ (2 : RegIdx) ≠ 3 := by decide
theorem witness_KeySkips : (getV State.reset 0).toNat = (0 : KeyCode).val ∧ (getV (reg 0 15 State.reset) 0).toNat = (15 : KeyCode).val ∧
    15 < (getV (reg 0 16 State.reset) 0).toNat ∧ 15 < (getV (reg 0 255 State.reset) 0).toNat := by decide
/-- The hypotheses of the frame, clause by clause: a register that is no destination, beside and at `VF`; the instructions
each class leaves out; and an address just past a store. -/
theorem witness_Frame : (∃ t, exec (.add 0 1) State.reset = .next t) ∧ (2 : RegIdx) ∉ destRegs (.add 0 1) ∧
    setsFlag (.add 0 1) = true ∧ (2 : RegIdx) ≠ 15 ∧ setsFlag (.ldi 0 1) = false ∧ (15 : RegIdx) ∉ destRegs (.ldi 0 1) ∧
    writesIndex (.ldi 0 1) = false ∧ usesStack (.ldi 0 1) = false ∧ writesScreen (.ldi 0 1) = false ∧ mayFault (.ldi 0 1) = false ∧
    storesTo (.stm 1) (idx 0x400 State.reset) 0x402 = false ∧ storesTo (.stm 1) (idx 0x400 State.reset) 0x401 = true ∧
    storesTo (.bcd 1) (idx 0xFFE State.reset) 1 = false ∧ storesTo (.bcd 1) (idx 0xFFE State.reset) 0 = true :=
  ⟨⟨_, rfl⟩, by decide, rfl, by decide, rfl, by decide, rfl, rfl, rfl, rfl, by decide, by decide, by decide, by decide⟩
theorem witness_SixFlagWriters : (∃ t, exec (.shl 1) State.reset = .next t ∧ setsFlag (.shl 1) = true ∧ (15 : RegIdx) ∉ destRegs (.shl 1)) ∧
    (∃ t, exec (.addi 1 1) State.reset = .next t ∧ setsFlag (.addi 1 1) = false ∧ (15 : RegIdx) ∉ destRegs (.addi 1 1)) :=
  ⟨⟨_, rfl, rfl, by decide⟩, ⟨_, rfl, rfl, by decide⟩⟩
theorem witness_Invariant : Inv (at200 0x600A) ∧ (∃ t, step (at200 0x600A) = .next t) ∧ Inv { State.reset with tacc := 999 } :=
  ⟨by decide, ⟨_, rfl⟩, by decide⟩
theorem witness_TransactionInvariant : ∃ t, Inv State.reset ∧
    transactAll [.load [0x60, 0x0A], .step, .tickTimers 1000, .keyDown 15] State.reset = .next t := ⟨_, by decide, rfl⟩
theorem witness_SoundTimer : (∃ t, exec (.gdt 3) State.reset = .next t) ∧ (∀ x, Instr.gdt 3 ≠ .sst x) ∧
    (∃ t, exec (.sst 3) State.reset = .next t) := ⟨⟨_, rfl⟩, fun _ h => (by cases h), ⟨_, rfl⟩⟩
/-- Two states that differ in the dead entry 1 and hold the same entry 0. -/
theorem witness_DeadStack : SameButDeadStack (held [0x206] State.reset) { held [0x206] State.reset with
      stack := (held [0x206] State.reset).stack.set 1 0xBEEF } ∧
    ∃ t, step (held [0x206] State.reset) = .next t := by
  refine ⟨⟨⟨rfl, fun k h hk => ?_⟩, rfl⟩, _, rfl⟩
  have h0 : k = 0 := by
    have : (held [0x206] State.reset).sp.val = 1 := by decide
    omega
  subst h0
  rfl
theorem witness_ReturnAfterCall : ∃ t u, (held (List.replicate 15 0) State.reset).sp.val < 16 ∧
    exec (.call 0x300) (held (List.replicate 15 0) State.reset) = .next t ∧ exec .ret t = .next u :=
  ⟨_, _, by decide, rfl, rfl⟩
/-- `STM V1` over the next instruction at 0x202, its two bytes from `V[0]` and `V[1]`. -/
theorem witness_StoreIsFetched : ∃ t, exec (.stm 1) (idx 0x202 State.reset) = .next t ∧ (0 : RegIdx) ≤ 1 ∧ (1 : RegIdx) ≤ 1 ∧
    ea t.pc.toNat = ea (indexAddr (idx 0x202 State.reset) 0) ∧ ea (t.pc.toNat + 1) = ea (indexAddr (idx 0x202 State.reset) 1) :=
  ⟨_, rfl, by decide, by decide, by decide, by decide⟩
theorem witness_Reset : (0 : Nat) < Config.memSize ∧ 79 < Config.fontSize ∧ ¬ 80 < Config.fontSize ∧ 4095 < Config.memSize := by decide
/-- The gate just below the interval, at it, and halted. -/
theorem witness_TickGate : State.reset.fault = none ∧ State.reset.tacc + 999 < Config.timerInterval ∧
    Config.timerInterval ≤ State.reset.tacc + 1000 ∧ { State.reset with fault := some rec8008 }.fault ≠ none := by decide
theorem witness_TimersFall : (∃ t, transact (.tickTimers 1000) { State.reset with dt := 1 } = .next t ∧ t.dt = 0) ∧
    (∃ t, transact .step (reg 3 7 (at200 0xF315)) = .next t ∧ t.dt = 7) ∧ Transaction.step ≠ .reset :=
  ⟨⟨_, rfl, by decide⟩, ⟨_, rfl, by decide⟩, by decide⟩
theorem witness_KeyDown : (State.reset.fault = none ∧ State.reset.wait = false) ∧
    ({ State.reset with wait := true }.fault = none ∧ { State.reset with wait := true }.wait = true) ∧
    { State.reset with fault := some rec8008 }.fault ≠ none := by decide
theorem witness_Suspended : { State.reset with wait := true }.wait = true ∧
    (∃ t, transact (.keyDown 4) { State.reset with wait := true } = .next t ∧ t.wait = false) ∧
    (∃ t, transact .reset { State.reset with wait := true } = .next t ∧ t.wait = false) :=
  ⟨rfl, ⟨_, rfl, by decide⟩, ⟨_, rfl, rfl⟩⟩
theorem witness_Halted : { State.reset with fault := some rec8008 }.fault ≠ none ∧
    Transaction.reset ∉ [Transaction.step, .keyDown 1, .tickTimers 5, .load [1]] := by decide
/-- The longest image, one byte more, and a halted machine. -/
theorem witness_Load : State.reset.fault = none ∧
    (List.replicate 3584 (0 : Byte)).length ≤ Config.memSize - Config.params.programOffset ∧
    Config.memSize - Config.params.programOffset < (List.replicate 3585 (0 : Byte)).length ∧
    { State.reset with fault := some rec8008 }.fault ≠ none := by
  simp only [List.length_replicate]
  decide
theorem witness_HostContract : Transaction.step ≠ .reset ∧
    (List.replicate 3584 (0 : Byte)).length ≤ Config.memSize - Config.params.programOffset := by
  simp only [List.length_replicate]
  decide
theorem witness_PlacedInstruction : decodeTableWord 16 0xD012 = some (.drw 0 1 2) ∧ ea 0x202 ≠ ea State.reset.pc.toNat ∧
    ea 0x202 ≠ ea (State.reset.pc.toNat + 1) := by decide

end Sys2Proof.Tests
end

/-! PROOFS. The invariant along every sequence of transactions (`00_scope.md` R8, R190). -/

namespace Sys2Proof.Proofs

open Sys2Proof.Machine Sys2Proof.Safety Sys2Proof.Laws

/-! ### What executing an instruction does to memory and the timer gate -/

/-- From `s` to `t` neither memory nor the timer gate changes. -/
def SameMemAndGate (s t : State) : Prop := t.mem = s.mem ∧ t.tacc = s.tacc

theorem inv_of_sameMemAndGate {s t : State} (hs : Inv s) (h : SameMemAndGate s t) : Inv t := by
  obtain ⟨hmem, hgate⟩ := h
  exact ⟨hmem ▸ hs.1, hgate ▸ hs.2⟩

theorem sameMemAndGate_skipIf (c : Bool) (s : State) : SameMemAndGate s (skipIf c s) :=
  ⟨skipIf_mem c s, skipIf_tacc c s⟩

theorem sameMemAndGate_of_raise {k : FaultKind} {w : Word} {s t : State} (h : raise k w s = .next t) :
    SameMemAndGate s t := by
  cases h
  exact ⟨rfl, rfl⟩

theorem sameMemAndGate_of_skipOnKey {down : Bool} {w : Word} {x : RegIdx} {s t : State}
    (h : skipOnKey down w x s = .next t) : SameMemAndGate s t := by
  rcases skipOnKey_cases down w x s with ⟨-, e⟩ | ⟨_, e⟩
  · exact sameMemAndGate_of_raise (e ▸ h)
  · cases e.symm.trans h
    exact sameMemAndGate_skipIf _ s

/-- `BCD` and `STM` are the only instructions that write memory, and none writes the timer gate (R22, R29). -/
theorem exec_mem_gate_cases {i : Instr} {s t : State} (h : exec i s = .next t) :
    SameMemAndGate s t ∨
    (∃ x, i = .bcd x ∧ t = advance (storeDigits (getV s x) s)) ∨
    (∃ x, i = .stm x ∧ t = advance (storeRegs (regsUpTo x) s)) := by
  cases i with
  | bcd x => cases h; exact .inr (.inl ⟨x, rfl, rfl⟩)
  | stm x => cases h; exact .inr (.inr ⟨x, rfl, rfl⟩)
  | ldm x =>
    cases h
    exact .inl ⟨loadRegs_mem _ s, loadRegs_tacc _ s⟩
  | ret =>
    left
    rcases exec_ret_cases s with ⟨-, e⟩ | ⟨_, e⟩
    · exact sameMemAndGate_of_raise (e ▸ h)
    · cases e.symm.trans h
      exact ⟨rfl, rfl⟩
  | call nnn =>
    left
    rcases exec_call_cases nnn s with ⟨-, e⟩ | ⟨_, e⟩
    · exact sameMemAndGate_of_raise (e ▸ h)
    · cases e.symm.trans h
      exact ⟨rfl, rfl⟩
  | skp | sknp => exact .inl (sameMemAndGate_of_skipOnKey h)
  | sei | snei | ser | sner => cases h; exact .inl (sameMemAndGate_skipIf _ s)
  | idle | cls | jp | jpv0 | ldi | addi | mov | or | and | xor | add | sub | shr | sub7 | shl | rnd | lda | drw
  | gdt | wkey | sdt | sst | adda | font => cases h; exact .inl ⟨rfl, rfl⟩

/-! ### Each transaction keeps the invariant -/

theorem exec_keeps_inv {i : Instr} {s t : State} (hs : Inv s) (h : exec i s = .next t) : Inv t := by
  rcases exec_mem_gate_cases h with hsame | ⟨x, -, rfl⟩ | ⟨x, -, rfl⟩
  · exact inv_of_sameMemAndGate hs hsame
  · exact ⟨wf_storeDigits _ s hs.1, hs.2⟩
  · exact ⟨wf_storeRegs _ s hs.1, (storeRegs_tacc _ s).symm ▸ hs.2⟩

theorem step_keeps_inv {s t : State} (hs : Inv s) (h : step s = .next t) : Inv t := by
  rcases step_cases s with ⟨-, e⟩ | ⟨-, -, e⟩ | ⟨-, -, i, -, e⟩ | ⟨-, -, -, e⟩
  · cases e.symm.trans h; exact hs
  · cases e.symm.trans h; exact hs
  · exact exec_keeps_inv hs (e ▸ h)
  · exact inv_of_sameMemAndGate hs (sameMemAndGate_of_raise (e ▸ h))

theorem timerInterval_pos : 0 < Config.timerInterval := by decide

theorem inv_resetCore (s : State) : Inv (resetCore s) := ⟨wf_nil, timerInterval_pos⟩

theorem load_keeps_inv (bytes : List Byte) {s : State} (hs : Inv s) : Inv (load bytes s) := by
  rcases load_cases bytes s with ⟨-, e⟩ | ⟨-, -, e⟩ | ⟨-, -, e⟩ <;> rw [e]
  · exact hs
  · exact hs
  · refine ⟨wf_storeBytes _ bytes s hs.1, ?_⟩
    rw [storeBytes_frame]
    exact hs.2

/-- The gate restarts at 0 when the interval is reached, and otherwise stays below it (R183). -/
theorem tickTimers_keeps_inv (elapsed : Nat) {s : State} (hs : Inv s) : Inv (tickTimers elapsed s) := by
  rcases tickTimers_cases elapsed s with ⟨-, e⟩ | ⟨-, -, e⟩ | ⟨-, hlt, e⟩ <;> rw [e]
  · exact hs
  · exact ⟨hs.1, timerInterval_pos⟩
  · exact ⟨hs.1, hlt⟩

theorem keyDown_keeps_inv (k : KeyCode) {s : State} (hs : Inv s) : Inv (keyDown k s) := by
  rcases keyDown_cases k s with ⟨-, e⟩ | ⟨-, -, e⟩ | ⟨-, -, e⟩ <;> rw [e] <;> exact hs

theorem keyUp_keeps_inv (k : KeyCode) {s : State} (hs : Inv s) : Inv (keyUp k s) := by
  rcases keyUp_cases k s with ⟨-, e⟩ | ⟨-, e⟩ <;> rw [e] <;> exact hs

theorem transact_keeps_inv {tr : Transaction} {s t : State} (hs : Inv s) (h : transact tr s = .next t) : Inv t := by
  cases tr with
  | reset => cases h; exact inv_resetCore s
  | load bytes => cases h; exact load_keeps_inv bytes hs
  | step => exact step_keeps_inv hs h
  | tickTimers elapsed => cases h; exact tickTimers_keeps_inv elapsed hs
  | keyDown k => cases h; exact keyDown_keeps_inv k hs
  | keyUp k => cases h; exact keyUp_keeps_inv k hs

/-! ### Sequences of transactions -/

/-- A sequence that ends in a state went through its first transaction to a state, and on from there. -/
theorem transactAll_cons {tr : Transaction} {ts : List Transaction} {s t : State}
    (h : transactAll (tr :: ts) s = .next t) : ∃ u, transact tr s = .next u ∧ transactAll ts u = .next t := by
  cases e : transact tr s with
  | next u => exact ⟨u, rfl, by simpa only [transactAll, e] using h⟩
  | fault r => cases r
  | refused r => simp [transactAll, e] at h

/-- What each transaction of a sequence keeps, the sequence keeps. -/
theorem transactAll_induction {P : State → Prop} {ts : List Transaction}
    (hkeep : ∀ tr ∈ ts, ∀ s t, P s → transact tr s = .next t → P t) {s t : State} (hs : P s)
    (h : transactAll ts s = .next t) : P t := by
  induction ts generalizing s with
  | nil => cases h; exact hs
  | cons tr ts ih =>
    obtain ⟨u, hu, ht⟩ := transactAll_cons h
    have hPu : P u := hkeep tr (by simp) s u hs hu
    exact ih (fun tr' hmem => hkeep tr' (by simp [hmem])) hPu ht

/-- Settles O41, by induction on the transactions, each of which keeps the invariant. -/
theorem everyTransactionKeepsTheInvariant : Obligations.EveryTransactionKeepsTheInvariant := by
  intro ts s t hs h
  exact transactAll_induction (fun _ _ _ _ hs' h' => transact_keeps_inv hs' h') hs h

end Sys2Proof.Proofs

/-! PROOFS. The state through one instruction, one step and one transaction (`10_state.md`): what each instruction leaves
unchanged, the side effect on `VF`, the state no instruction reads, and the timers. -/

namespace Sys2Proof.Proofs

open Sys2Proof.Machine Sys2Proof.Safety Sys2Proof.Laws

/-! ### The invariant at reset and in one step -/

/-- Settles O40: the invariant speaks of memory and the timer gate, and only `BCD` and `STM` write either. -/
theorem everyStepKeepsTheInvariant : Obligations.EveryStepKeepsTheInvariant :=
  fun _ _ hs h => step_keeps_inv hs h

/-- Settles O39: after reset memory lists no cell and the gate stands at 0. -/
theorem invariantHoldsAtReset : Obligations.InvariantHoldsAtReset :=
  ⟨⟨wf_nil, timerInterval_pos⟩, inv_resetCore⟩

/-! ### The instructions that can fault, with their condition known -/

theorem exec_ret_of_empty (s : State) (h : s.sp.val = 0) : exec .ret s = raise .stackUnderflow (encode .ret) s := by
  rcases exec_ret_cases s with ⟨-, e⟩ | ⟨hpos, -⟩
  · exact e
  · omega

theorem exec_ret_of_pos (s : State) (h : 0 < s.sp.val) :
    exec .ret s = .next (setPc { s with sp := ⟨s.sp.val - 1, by omega⟩ }
      (s.stack[s.sp.val - 1]'(by have := s.sp.isLt; omega))) := by
  rcases exec_ret_cases s with ⟨hempty, -⟩ | ⟨_, e⟩
  · omega
  · exact e

theorem exec_call_of_full (nnn : Imm12) (s : State) (h : s.sp.val = 16) :
    exec (.call nnn) s = raise .stackOverflow (encode (.call nnn)) s := by
  rcases exec_call_cases nnn s with ⟨-, e⟩ | ⟨hlt, -⟩
  · exact e
  · omega

theorem exec_call_of_lt (nnn : Imm12) (s : State) (h : s.sp.val < 16) :
    exec (.call nnn) s = .next (setPc { s with
      stack := s.stack.set s.sp.val (s.pc + 2) h, sp := ⟨s.sp.val + 1, by omega⟩ } (zextImm nnn)) := by
  rcases exec_call_cases nnn s with ⟨hfull, -⟩ | ⟨_, e⟩
  · omega
  · exact e

theorem skipOnKey_of_ge (down : Bool) (w : Word) (x : RegIdx) (s : State) (h : 16 ≤ (getV s x).toNat) :
    skipOnKey down w x s = raise .keyIndexRange w s := by
  rcases skipOnKey_cases down w x s with ⟨-, e⟩ | ⟨hlt, -⟩
  · exact e
  · omega

theorem skipOnKey_of_lt (down : Bool) (w : Word) (x : RegIdx) (s : State) (h : (getV s x).toNat < 16) :
    skipOnKey down w x s = .next (skipIf (getKey s ⟨(getV s x).toNat, h⟩ = down) s) := by
  rcases skipOnKey_cases down w x s with ⟨hge, -⟩ | ⟨_, e⟩
  · omega
  · exact e

/-- Settles O44: `RET` pops the entry that `CALL` has just pushed, above all entries that were live. -/
theorem returnAfterCallComesBack : Obligations.ReturnAfterCallComesBack := by
  intro nnn s t u hsp hcall hret
  cases (exec_call_of_lt nnn s hsp).symm.trans hcall
  cases (exec_ret_of_pos _ (Nat.succ_pos _)).symm.trans hret
  have hpopped : (s.stack.set s.sp.val (s.pc + 2) hsp)[s.sp.val] = s.pc + 2 := Vector.getElem_set_self hsp
  refine ⟨?_, rfl, fun k hk hlive => ?_⟩
  · simp only [setPc, Nat.add_sub_cancel, hpopped]
  · exact (Vector.getElem_set_ne hsp hk (by omega)).symm

/-! ### General registers -/

theorem getV_skipIf (c : Bool) (s : State) (k : RegIdx) : getV (skipIf c s) k = getV s k := by
  simp only [getV, skipIf_v]

theorem getV_setV_of_notMem {s : State} {x k : RegIdx} {b : Byte} (hk : k ∉ [x]) : getV (setV s x b) k = getV s k := by
  rw [getV_setV, if_neg (fun e => hk (List.mem_singleton.2 e))]

theorem getV_setResultThenFlag_of_notMem {s : State} {x k : RegIdx} {r f : Byte} (hk : k ∉ [x]) (h15 : k ≠ 15) :
    getV (setResultThenFlag x r f s) k = getV s k := by
  rw [setResultThenFlag, getV_setVF, if_neg h15, getV_setV_of_notMem hk]

theorem getV_flagThenShift_of_notMem {s : State} {x k : RegIdx} {shift : Byte → Byte} (hk : k ∉ [x]) (h15 : k ≠ 15) :
    getV (flagThenShift x shift s) k = getV s k := by
  rw [flagThenShift, getV_setV_of_notMem hk, getV_setVF, if_neg h15]

/-- The flag is written last, so it stands even when `VF` is the destination (R133). -/
theorem getV_setResultThenFlag_flag (x : RegIdx) (r f : Byte) (s : State) : getV (setResultThenFlag x r f s) 15 = f := by
  rw [setResultThenFlag, getV_setVF, if_pos rfl]

theorem getV_flagThenShift_flag {s : State} {x : RegIdx} {shift : Byte → Byte} (hx : 15 ∉ [x]) :
    getV (flagThenShift x shift s) 15 = lsbFlag (getV s x) := by
  rw [flagThenShift, getV_setV_of_notMem hx, getV_setVF, if_pos rfl]

theorem getV_of_raise {f : FaultKind} {w : Word} {s t : State} (h : raise f w s = .next t) (k : RegIdx) :
    getV t k = getV s k := by
  cases h; rfl

theorem getV_of_skipOnKey {down : Bool} {w : Word} {x : RegIdx} {s t : State} (h : skipOnKey down w x s = .next t)
    (k : RegIdx) : getV t k = getV s k := by
  rcases skipOnKey_cases down w x s with ⟨-, e⟩ | ⟨_, e⟩
  · exact getV_of_raise (e ▸ h) k
  · cases e.symm.trans h
    exact getV_skipIf _ s k

/-- An instruction writes no register but its destinations and, for the six flag writers, `VF` (R10, R11). -/
theorem getV_of_exec {i : Instr} {s t : State} (h : exec i s = .next t) {k : RegIdx} (hk : k ∉ destRegs i)
    (hflag : setsFlag i = false ∨ k ≠ 15) : getV t k = getV s k := by
  cases i with
  | ldi | addi | mov | or | and | xor | gdt => cases h; exact getV_setV_of_notMem hk
  | rnd => cases h; exact getV_setV_of_notMem hk
  | add | sub | sub7 => cases h; exact getV_setResultThenFlag_of_notMem hk (hflag.resolve_left nofun)
  | shr | shl =>
    cases h
    exact (getV_advance _ k).trans (getV_flagThenShift_of_notMem hk (hflag.resolve_left nofun))
  | drw => cases h; exact drawSprite_getV _ _ _ s k (hflag.resolve_left nofun)
  | ldm x => cases h; exact (getV_loadRegs (regsUpTo x) s k).trans (if_neg hk)
  | stm x => cases h; exact congrArg (·[k.val]) (storeRegs_v (regsUpTo x) s)
  | sei | snei | ser | sner => cases h; exact getV_skipIf _ s k
  | skp | sknp => exact getV_of_skipOnKey h k
  | ret =>
    rcases exec_ret_cases s with ⟨-, e⟩ | ⟨_, e⟩
    · exact getV_of_raise (e ▸ h) k
    · cases e.symm.trans h; rfl
  | call nnn =>
    rcases exec_call_cases nnn s with ⟨-, e⟩ | ⟨_, e⟩
    · exact getV_of_raise (e ▸ h) k
    · cases e.symm.trans h; rfl
  | idle | cls | jp | jpv0 | lda | wkey | sdt | sst | adda | font | bcd => cases h; rfl

theorem lsbFlag_cases (a : Byte) : lsbFlag a = 0 ∨ lsbFlag a = 1 := by
  rcases Nat.mod_two_eq_zero_or_one a.toNat with h | h
  · exact .inl (BitVec.eq_of_toNat_eq ((lsbFlag_toNat a).trans h))
  · exact .inr (BitVec.eq_of_toNat_eq ((lsbFlag_toNat a).trans h))

/-- Each of the six flag writers leaves a truth value in `VF`, when `VF` is not its destination. -/
theorem flag_of_exec {i : Instr} {s t : State} (h : exec i s = .next t) (hflag : setsFlag i = true)
    (hdest : 15 ∉ destRegs i) : getV t 15 = 0 ∨ getV t 15 = 1 := by
  cases i with
  | add x y =>
    cases h
    rw [getV_advance, getV_setResultThenFlag_flag]
    exact b2i_cases _
  | sub x y | sub7 x y =>
    cases h
    rw [getV_advance, subtract, getV_setResultThenFlag_flag]
    exact b2i_cases _
  | shr x | shl x =>
    cases h
    rw [getV_advance, getV_flagThenShift_flag hdest]
    exact lsbFlag_cases _
  | drw x y n =>
    cases h
    rw [getV_advance, drawSprite, getV_setVF, if_pos rfl]
    exact b2i_cases _
  | _ => cases hflag

/-- Settles O38: the first half is the register frame at `VF`, the second the value of each flag. -/
theorem exactlySixInstructionsWriteTheFlag : Obligations.ExactlySixInstructionsWriteTheFlag :=
  ⟨fun _ _ _ h hflag hdest => getV_of_exec h hdest (.inl hflag), fun _ _ _ h hflag hdest => flag_of_exec h hflag hdest⟩

/-! ### The access table (R29) -/

/-- From `s` to `t` every piece of state but the registers, `pc` and memory is unchanged, unless `i` is listed as its
writer. -/
structure FieldFrame (i : Instr) (s t : State) : Prop where
  index : writesIndex i = false → t.i = s.i
  stack : usesStack i = false → t.sp = s.sp ∧ t.stack = s.stack
  delay : (∀ x, i ≠ .sdt x) → t.dt = s.dt
  sound : (∀ x, i ≠ .sst x) → t.st = s.st
  screen : writesScreen i = false → t.fb = s.fb
  keys : t.key = s.key
  gate : t.tacc = s.tacc
  wait : (∀ x, i ≠ .wkey x) → t.wait = s.wait ∧ t.waitReg = s.waitReg
  fault : mayFault i = false → t.fault = s.fault
  draws : (∀ x nn, i ≠ .rnd x nn) → t.draws = s.draws

theorem fieldFrame_refl (i : Instr) (s : State) : FieldFrame i s s where
  index _ := rfl
  stack _ := ⟨rfl, rfl⟩
  delay _ := rfl
  sound _ := rfl
  screen _ := rfl
  keys := rfl
  gate := rfl
  wait _ := ⟨rfl, rfl⟩
  fault _ := rfl
  draws _ := rfl

/-- Registers, `pc` and memory are outside the frame. -/
theorem fieldFrame_of_regs_pc_mem (i : Instr) (s : State) (v : Vector Byte 16) (pc : Word) (mem : Mem) :
    FieldFrame i s { s with v := v, pc := pc, mem := mem } :=
  { fieldFrame_refl i s with }

theorem fieldFrame_of_skipIf (i : Instr) (c : Bool) (s : State) : FieldFrame i s (skipIf c s) := by
  rw [skipIf_eq]
  exact fieldFrame_of_regs_pc_mem i s _ _ _

theorem fieldFrame_of_raise {i : Instr} {k : FaultKind} {w : Word} {s t : State} (hi : mayFault i = true)
    (h : raise k w s = .next t) : FieldFrame i s t := by
  cases h
  exact { fieldFrame_refl i s with fault := fun hno => absurd (hi.symm.trans hno) nofun }

theorem fieldFrame_of_skipOnKey {i : Instr} {down : Bool} {w : Word} {x : RegIdx} {s t : State}
    (hi : mayFault i = true) (h : skipOnKey down w x s = .next t) : FieldFrame i s t := by
  rcases skipOnKey_cases down w x s with ⟨-, e⟩ | ⟨_, e⟩
  · exact fieldFrame_of_raise hi (e ▸ h)
  · cases e.symm.trans h
    exact fieldFrame_of_skipIf i _ s

theorem fieldFrame_of_exec {i : Instr} {s t : State} (h : exec i s = .next t) : FieldFrame i s t := by
  cases i with
  | idle | jp | jpv0 | ldi | addi | mov | or | and | xor | add | sub | shr | sub7 | shl | gdt | bcd =>
    cases h; exact fieldFrame_of_regs_pc_mem _ s _ _ _
  | stm x =>
    cases h
    rw [storeRegs_frame]
    exact fieldFrame_of_regs_pc_mem _ s _ _ _
  | ldm x =>
    cases h
    rw [loadRegs_frame]
    exact fieldFrame_of_regs_pc_mem _ s _ _ _
  | sei | snei | ser | sner => cases h; exact fieldFrame_of_skipIf _ _ s
  | skp | sknp => exact fieldFrame_of_skipOnKey rfl h
  | ret =>
    rcases exec_ret_cases s with ⟨-, e⟩ | ⟨_, e⟩
    · exact fieldFrame_of_raise rfl (e ▸ h)
    · cases e.symm.trans h
      exact { fieldFrame_refl .ret s with stack := nofun }
  | call nnn =>
    rcases exec_call_cases nnn s with ⟨-, e⟩ | ⟨_, e⟩
    · exact fieldFrame_of_raise rfl (e ▸ h)
    · cases e.symm.trans h
      exact { fieldFrame_refl (.call nnn) s with stack := nofun }
  | cls =>
    cases h
    exact { fieldFrame_refl .cls s with screen := nofun }
  | drw x y n =>
    cases h
    exact { fieldFrame_refl (.drw x y n) s with screen := nofun }
  | lda nnn =>
    cases h
    exact { fieldFrame_refl (.lda nnn) s with index := nofun }
  | adda x =>
    cases h
    exact { fieldFrame_refl (.adda x) s with index := nofun }
  | font x =>
    cases h
    exact { fieldFrame_refl (.font x) s with index := nofun }
  | rnd x nn =>
    cases h
    exact { fieldFrame_refl (.rnd x nn) s with draws := fun hno => absurd rfl (hno x nn) }
  | wkey x =>
    cases h
    exact { fieldFrame_refl (.wkey x) s with wait := fun hno => absurd rfl (hno x) }
  | sdt x =>
    cases h
    exact { fieldFrame_refl (.sdt x) s with delay := fun hno => absurd rfl (hno x) }
  | sst x =>
    cases h
    exact { fieldFrame_refl (.sst x) s with sound := fun hno => absurd rfl (hno x) }

/-- A byte of memory is unchanged unless the instruction stores to its effective address (R29, R49). -/
theorem memRead_of_exec {i : Instr} {s t : State} (h : exec i s = .next t) {a : Nat} (ha : storesTo i s a = false) :
    memRead t a = memRead s a := by
  rcases exec_mem_gate_cases h with ⟨hmem, -⟩ | ⟨x, rfl, rfl⟩ | ⟨x, rfl, rfl⟩
  · exact memRead_congr hmem a
  · have hne : ∀ k < 3, ea a ≠ ea (indexAddr s k) := by simpa [storesTo] using ha
    rw [memRead_advance, memRead_storeDigits, if_neg (hne 2 (by decide)), if_neg (hne 1 (by decide)),
      if_neg (hne 0 (by decide))]
  · have hne : ∀ k ∈ regsUpTo x, ea a ≠ ea (indexAddr s k.val) := by simpa [storesTo] using ha
    exact memRead_storeRegs_other _ s a hne

/-- Settles O37: the registers, the bytes of memory and the other pieces of state, each by its lemma. -/
theorem eachInstructionWritesOnlyWhatItsRowLists : Obligations.EachInstructionWritesOnlyWhatItsRowLists := by
  intro i s t h
  have frame := fieldFrame_of_exec h
  exact ⟨fun _ hk hflag => getV_of_exec h hk hflag, frame.index, frame.stack, frame.delay, frame.sound, frame.screen,
    frame.keys, frame.gate, frame.wait, frame.fault, fun _ ha => memRead_of_exec h ha, frame.draws⟩

/-! ### State that no instruction reads -/

/-- The stack, the sound timer and the timer gate changed by three functions, `id` for the ones that are kept. -/
def mapUnread (stack : Vector Word 16 → Vector Word 16) (sound : Byte → Byte) (gate : Nat → Nat) (s : State) : State :=
  { s with stack := stack s.stack, st := sound s.st, tacc := gate s.tacc }

section
variable {stack : Vector Word 16 → Vector Word 16} {sound : Byte → Byte} {gate : Nat → Nat}

theorem skipIf_mapUnread (c : Bool) (s : State) :
    skipIf c (mapUnread stack sound gate s) = mapUnread stack sound gate (skipIf c s) := by
  cases c <;> rfl

theorem foldStore_mapUnread (ks : List RegIdx) (s t : State) :
    ks.foldl (fun t k => memWrite t (indexAddr s k.val) (getV s k)) (mapUnread stack sound gate t)
      = mapUnread stack sound gate (ks.foldl (fun t k => memWrite t (indexAddr s k.val) (getV s k)) t) := by
  induction ks generalizing t with
  | nil => rfl
  | cons k ks ih => exact ih (memWrite t (indexAddr s k.val) (getV s k))

theorem storeRegs_mapUnread (ks : List RegIdx) (s : State) :
    storeRegs ks (mapUnread stack sound gate s) = mapUnread stack sound gate (storeRegs ks s) :=
  foldStore_mapUnread ks s s

theorem foldLoad_mapUnread (ks : List RegIdx) (s t : State) :
    ks.foldl (fun t k => setV t k (memRead s (indexAddr s k.val))) (mapUnread stack sound gate t)
      = mapUnread stack sound gate (ks.foldl (fun t k => setV t k (memRead s (indexAddr s k.val))) t) := by
  induction ks generalizing t with
  | nil => rfl
  | cons k ks ih => exact ih (setV t k (memRead s (indexAddr s k.val)))

theorem loadRegs_mapUnread (ks : List RegIdx) (s : State) :
    loadRegs ks (mapUnread stack sound gate s) = mapUnread stack sound gate (loadRegs ks s) :=
  foldLoad_mapUnread ks s s

theorem raise_mapUnread {k : FaultKind} {w : Word} {s t : State} (h : raise k w s = .next t) :
    raise k w (mapUnread stack sound gate s) = .next (mapUnread stack sound gate t) := by
  cases h; rfl

theorem skipOnKey_mapUnread {down : Bool} {w : Word} {x : RegIdx} {s t : State} (h : skipOnKey down w x s = .next t) :
    skipOnKey down w x (mapUnread stack sound gate s) = .next (mapUnread stack sound gate t) := by
  rcases skipOnKey_cases down w x s with ⟨hge, e⟩ | ⟨hlt, e⟩
  · exact (skipOnKey_of_ge down w x (mapUnread stack sound gate s) hge).trans (raise_mapUnread (e ▸ h))
  · cases e.symm.trans h
    exact (skipOnKey_of_lt down w x (mapUnread stack sound gate s) hlt).trans (congrArg _ (skipIf_mapUnread _ s))

/-- An instruction treats alike two states that differ in the sound timer and the timer gate, and, if it is neither `CALL`
nor `RET`, in the stack. -/
theorem exec_mapUnread {i : Instr} {s t : State} (h : exec i s = .next t) (hstack : usesStack i = false ∨ stack = id)
    (hsound : (∀ x, i ≠ .sst x) ∨ sound = id) :
    exec i (mapUnread stack sound gate s) = .next (mapUnread stack sound gate t) := by
  cases i with
  | sst x =>
    obtain rfl := hsound.resolve_left (fun hno => hno x rfl)
    cases h; rfl
  | ret =>
    obtain rfl := hstack.resolve_left nofun
    rcases exec_ret_cases s with ⟨hempty, e⟩ | ⟨hpos, e⟩
    · exact (exec_ret_of_empty (mapUnread id sound gate s) hempty).trans (raise_mapUnread (e ▸ h))
    · cases e.symm.trans h
      exact exec_ret_of_pos (mapUnread id sound gate s) hpos
  | call nnn =>
    obtain rfl := hstack.resolve_left nofun
    rcases exec_call_cases nnn s with ⟨hfull, e⟩ | ⟨hlt, e⟩
    · exact (exec_call_of_full nnn (mapUnread id sound gate s) hfull).trans (raise_mapUnread (e ▸ h))
    · cases e.symm.trans h
      exact exec_call_of_lt nnn (mapUnread id sound gate s) hlt
  | skp | sknp => exact skipOnKey_mapUnread h
  | sei | snei | ser | sner => cases h; exact congrArg _ (skipIf_mapUnread _ s)
  | stm x => cases h; exact congrArg (fun u => Host.Outcome.next (advance u)) (storeRegs_mapUnread (regsUpTo x) s)
  | ldm x => cases h; exact congrArg (fun u => Host.Outcome.next (advance u)) (loadRegs_mapUnread (regsUpTo x) s)
  | idle | cls | jp | jpv0 | ldi | addi | mov | or | and | xor | add | sub | shr | sub7 | shl | rnd | lda | drw
  | gdt | wkey | sdt | adda | font | bcd => cases h; rfl

end

/-- Settles O42: changing the timer or the gate commutes with every instruction, and `SST` overwrites the timer unread. -/
theorem soundTimerAndGateAreNeverRead : Obligations.SoundTimerAndGateAreNeverRead := by
  intro i s t h
  refine ⟨fun a => ?_, fun b hno => ?_, ?_⟩
  · exact exec_mapUnread (stack := id) (sound := id) (gate := fun _ => a) h (.inr rfl) (.inr rfl)
  · exact exec_mapUnread (stack := id) (sound := fun _ => b) (gate := id) h (.inr rfl) (.inl hno)
  · rintro b x rfl
    cases h; rfl

/-! ### Dead stack entries (R14) -/

/-- The second state is the first with another stack that has the same live entries. -/
theorem sameButDeadStack_iff {s s' : State} :
    SameButDeadStack s s' ↔
      ∃ stack, (∀ k (h : k < 16), k < s.sp.val → s.stack[k] = stack[k]) ∧ s' = { s with stack := stack } := by
  constructor
  · rintro ⟨⟨-, hlive⟩, hs'⟩
    exact ⟨s'.stack, hlive, hs'⟩
  · rintro ⟨stack, hlive, rfl⟩
    exact ⟨⟨rfl, hlive⟩, rfl⟩

section
variable {s : State} {stack : Vector Word 16} (hlive : ∀ k (h : k < 16), k < s.sp.val → s.stack[k] = stack[k])
include hlive

theorem raise_withDeadStack {k : FaultKind} {w : Word} {t : State} (h : raise k w s = .next t) :
    ∃ t', raise k w { s with stack := stack } = .next t' ∧ SameButDeadStack t t' := by
  cases h
  exact ⟨_, rfl, sameButDeadStack_iff.2 ⟨stack, hlive, rfl⟩⟩

/-- `RET` reads the top live entry, and that entry dies. -/
theorem exec_ret_withDeadStack {t : State} (h : exec .ret s = .next t) :
    ∃ t', exec .ret { s with stack := stack } = .next t' ∧ SameButDeadStack t t' := by
  rcases exec_ret_cases s with ⟨hempty, e⟩ | ⟨hpos, e⟩
  · obtain ⟨t', ht', hsame⟩ := raise_withDeadStack hlive (e ▸ h)
    exact ⟨t', (exec_ret_of_empty { s with stack := stack } hempty).trans ht', hsame⟩
  · cases e.symm.trans h
    have htop := hlive (s.sp.val - 1) (by omega) (by omega)
    refine ⟨_, exec_ret_of_pos { s with stack := stack } hpos, sameButDeadStack_iff.2 ⟨stack, fun k hk hlt => ?_, ?_⟩⟩
    · exact hlive k hk (Nat.lt_of_lt_of_le hlt (Nat.sub_le _ 1))
    · simp only [setPc, htop]

/-- `CALL` reads no entry, and the one it writes becomes live. -/
theorem exec_call_withDeadStack {nnn : Imm12} {t : State} (h : exec (.call nnn) s = .next t) :
    ∃ t', exec (.call nnn) { s with stack := stack } = .next t' ∧ SameButDeadStack t t' := by
  rcases exec_call_cases nnn s with ⟨hfull, e⟩ | ⟨hlt, e⟩
  · obtain ⟨t', ht', hsame⟩ := raise_withDeadStack hlive (e ▸ h)
    exact ⟨t', (exec_call_of_full nnn { s with stack := stack } hfull).trans ht', hsame⟩
  · cases e.symm.trans h
    refine ⟨_, exec_call_of_lt nnn { s with stack := stack } hlt, sameButDeadStack_iff.2 ⟨_, fun k hk hle => ?_, rfl⟩⟩
    simp only [setPc_stack, setPc_sp, Vector.getElem_set] at hle ⊢
    split
    · rfl
    · exact hlive k hk (by omega)

theorem exec_withDeadStack {i : Instr} {t : State} (h : exec i s = .next t) :
    ∃ t', exec i { s with stack := stack } = .next t' ∧ SameButDeadStack t t' := by
  cases hi : usesStack i with
  | false =>
    have hexec := exec_mapUnread (stack := fun _ => stack) (sound := id) (gate := id) h (.inl hi) (.inr rfl)
    obtain ⟨hsp, hstack⟩ := (fieldFrame_of_exec h).stack hi
    exact ⟨_, hexec, sameButDeadStack_iff.2 ⟨stack, by rwa [hsp, hstack], rfl⟩⟩
  | true =>
    cases i with
    | ret => exact exec_ret_withDeadStack hlive h
    | call nnn => exact exec_call_withDeadStack hlive h
    | _ => cases hi

end

/-- A step of a halted or suspended machine changes nothing (R81, R82). -/
theorem step_of_gated {s : State} (h : s.fault ≠ none ∨ s.wait = true) : step s = .next s := by
  rcases step_cases s with ⟨-, e⟩ | ⟨-, -, e⟩ | ⟨hf, hw, -⟩ | ⟨hf, hw, -⟩
  · exact e
  · exact e
  all_goals simp [hf, hw] at h

/-- Settles O43: the two states pass the same gates and fetch the same word, and the instruction or fault it stands for keeps
the relation. -/
theorem deadStackEntriesAreNeverRead : Obligations.DeadStackEntriesAreNeverRead := by
  intro s s' t hsame h
  obtain ⟨stack, hlive, rfl⟩ := sameButDeadStack_iff.1 hsame
  have hfetch : fetchWord { s with stack := stack } = fetchWord s := rfl
  rcases step_cases s with ⟨hf, e⟩ | ⟨-, hw, e⟩ | ⟨hf, hw, i, hd, e⟩ | ⟨hf, hw, hd, e⟩
  · cases e.symm.trans h
    exact ⟨_, step_of_gated (.inl hf), hsame⟩
  · cases e.symm.trans h
    exact ⟨_, step_of_gated (.inr hw), hsame⟩
  · rw [step_open { s with stack := stack } hf hw, hfetch, hd]
    exact exec_withDeadStack hlive (e ▸ h)
  · rw [step_open { s with stack := stack } hf hw, hfetch, hd]
    exact raise_withDeadStack hlive (e ▸ h)

/-! ### The timers (R15, R184) -/

theorem timerDown_cases (b : Byte) : timerDown b = b ∨ (timerDown b).toNat + 1 = b.toNat := by
  have h := timerDown_toNat b
  by_cases hb : b.toNat = 0
  · exact .inl (BitVec.eq_of_toNat_eq (by omega))
  · exact .inr (by omega)

/-- From `s` to `t` each timer is unchanged or one lower. -/
def TimersFall (s t : State) : Prop :=
  (t.dt = s.dt ∨ t.dt.toNat + 1 = s.dt.toNat) ∧ (t.st = s.st ∨ t.st.toNat + 1 = s.st.toNat)

theorem timersFall_of_eq {s t : State} (hdt : t.dt = s.dt) (hst : t.st = s.st) : TimersFall s t := ⟨.inl hdt, .inl hst⟩

theorem timersFall_load (bytes : List Byte) (s : State) : TimersFall s (load bytes s) := by
  rcases load_cases bytes s with ⟨-, e⟩ | ⟨-, -, e⟩ | ⟨-, -, e⟩ <;> rw [e]
  · exact timersFall_of_eq rfl rfl
  · exact timersFall_of_eq rfl rfl
  · rw [storeBytes_frame]
    exact timersFall_of_eq rfl rfl

theorem timersFall_tickTimers (elapsed : Nat) (s : State) : TimersFall s (tickTimers elapsed s) := by
  rcases tickTimers_cases elapsed s with ⟨-, e⟩ | ⟨-, -, e⟩ | ⟨-, -, e⟩ <;> rw [e]
  · exact timersFall_of_eq rfl rfl
  · exact ⟨timerDown_cases s.dt, timerDown_cases s.st⟩
  · exact timersFall_of_eq rfl rfl

theorem timersFall_keyDown (k : KeyCode) (s : State) : TimersFall s (keyDown k s) := by
  rcases keyDown_cases k s with ⟨-, e⟩ | ⟨-, -, e⟩ | ⟨-, -, e⟩ <;> rw [e] <;> exact timersFall_of_eq rfl rfl

theorem timersFall_keyUp (k : KeyCode) (s : State) : TimersFall s (keyUp k s) := by
  rcases keyUp_cases k s with ⟨-, e⟩ | ⟨-, e⟩ <;> rw [e] <;> exact timersFall_of_eq rfl rfl

/-- A transaction other than `step` and `reset` leaves each timer or lowers it by 1. -/
theorem timersFall_of_transact {tr : Transaction} {s t : State} (h : transact tr s = .next t) (hreset : tr ≠ .reset)
    (hstep : tr ≠ .step) : TimersFall s t := by
  cases tr with
  | reset => exact absurd rfl hreset
  | step => exact absurd rfl hstep
  | load bytes => cases h; exact timersFall_load bytes s
  | tickTimers elapsed => cases h; exact timersFall_tickTimers elapsed s
  | keyDown k => cases h; exact timersFall_keyDown k s
  | keyUp k => cases h; exact timersFall_keyUp k s

/-- A step leaves each timer, unless it runs the instruction that sets it. -/
theorem timers_of_step {s t : State} (h : step s = .next t) :
    (t.dt = s.dt ∨ ∃ x, decodeWord (fetchWord s) = some (.sdt x)) ∧
    (t.st = s.st ∨ ∃ x, decodeWord (fetchWord s) = some (.sst x)) := by
  rcases step_cases s with ⟨-, e⟩ | ⟨-, -, e⟩ | ⟨-, -, i, hd, e⟩ | ⟨-, -, -, e⟩
  · cases e.symm.trans h; exact ⟨.inl rfl, .inl rfl⟩
  · cases e.symm.trans h; exact ⟨.inl rfl, .inl rfl⟩
  · have frame := fieldFrame_of_exec (e ▸ h)
    rw [hd]
    constructor
    · by_cases hi : ∃ x, i = .sdt x
      · exact .inr (hi.imp fun _ => congrArg some)
      · exact .inl (frame.delay (not_exists.1 hi))
    · by_cases hi : ∃ x, i = .sst x
      · exact .inr (hi.imp fun _ => congrArg some)
      · exact .inl (frame.sound (not_exists.1 hi))
  · cases e.symm.trans h; exact ⟨.inl rfl, .inl rfl⟩

/-- Settles O49: a step sets a timer only by `SDT` or `SST`, and of the other transactions only a tick touches them. -/
theorem timersFallOnlyByDecrements : Obligations.TimersFallOnlyByDecrements := by
  intro tr s t h hreset
  by_cases hstep : tr = .step
  · subst hstep
    obtain ⟨hdt, hst⟩ := timers_of_step h
    exact ⟨hdt.imp_right fun hx => .inr ⟨rfl, hx⟩, hst.imp_right fun hx => .inr ⟨rfl, hx⟩⟩
  · obtain ⟨hdt, hst⟩ := timersFall_of_transact h hreset hstep
    exact ⟨hdt.imp_right .inl, hst.imp_right .inl⟩

end Sys2Proof.Proofs


/-! PROOFS. The fetch from memory (`20_memory.md` R41, R43, R45). -/

namespace Sys2Proof.Proofs

open Sys2Proof.Machine Sys2Proof.Laws

/-- A word as a number, from its high and its low byte (R43, R45). -/
theorem wordOfBytes_toNat (hi lo : Byte) : (wordOfBytes hi lo).toNat = 256 * hi.toNat + lo.toNat := by
  calc (wordOfBytes hi lo).toNat
    _ = hi.toNat <<< 8 ||| lo.toNat := BitVec.toNat_append hi lo
    _ = hi.toNat <<< 8 + lo.toNat := (Nat.shiftLeft_add_eq_or_of_lt lo.isLt hi.toNat).symm
    _ = 256 * hi.toNat + lo.toNat := by rw [Nat.shiftLeft_eq, Nat.mul_comm]

/-- Settles O5: the fetched word is the two bytes read at `pc` and `pc + 1`, and a read reduces its own address. -/
theorem fetchIsTwoBytesHighByteFirst : Obligations.FetchIsTwoBytesHighByteFirst := by
  intro s
  rw [fetchWord_eq, wordOfBytes_toNat, memRead, memRead, ea, ea]

end Sys2Proof.Proofs


/-! PROOFS. The decoder against the encoder, the opcode map and the list of illegal words (`30_encoding.md` R60 to R66). -/

namespace Sys2Proof.Proofs

open Sys2Proof.Laws

/-! ### Decoding what was encoded -/

@[simp] theorem decodeWord_encode (i : Instr) : decodeWord (encode i) = some i := by
  cases i with
  | idle | cls | ret => rfl
  | jp | call | lda | jpv0 => simp only [encode, decodeWord, fieldOp_encNNN, fieldNNN_encNNN]; rfl
  | sei | snei | ldi | addi | rnd =>
    simp only [encode, decodeWord, fieldOp_encXNN, fieldX_encXNN, fieldNN_encXNN]; rfl
  | skp | sknp | gdt | wkey | sdt | sst | adda | font | bcd | stm | ldm =>
    simp only [encode, decodeWord, fieldOp_encXNN, fieldX_encXNN, fieldNN_encXNN]; rfl
  | ser | sner | mov | or | and | xor | add | sub | shr | sub7 | shl | drw =>
    simp only [encode, decodeWord, fieldOp_encXYN, fieldX_encXYN, fieldY_encXYN, fieldN_encXYN]; rfl

/-- An instruction takes two bytes and leaves the others (R60). -/
theorem decode_bytesOfWord {w : Word} {i : Instr} (h : decodeWord w = some i) (rest : List Byte) :
    decode (bytesOfWord w ++ rest) = .ok (i, rest) := by
  simp only [bytesOfWord, List.cons_append, List.nil_append, decode, wordOfBytes_bytes, h]

/-- Settles O1: the bytes of the word are the word again, and its fields are the operands. -/
theorem decodeOfEncodeIsTheInstruction : Obligations.DecodeOfEncodeIsTheInstruction :=
  fun i rest => decode_bytesOfWord (decodeWord_encode i) rest

/-! ### A masked word by its fields -/

theorem and_family (w : Word) : w &&& 0xF000 = encNNN (fieldOp w) 0 :=
  (congrArg (· &&& 0xF000) (word_eq_encNNN w)).trans (and_encNNN _ _)

theorem and_family_n (w : Word) : w &&& 0xF00F = encXYN (fieldOp w) 0 0 (fieldN w) :=
  (congrArg (· &&& 0xF00F) (word_eq_encXYN w)).trans (and_encXYS _ _ _ _)

theorem and_family_nn (w : Word) : w &&& 0xF0FF = encXNN (fieldOp w) 0 (fieldNN w) :=
  (congrArg (· &&& 0xF0FF) (word_eq_encXNN w)).trans (and_encXS _ _ _)

theorem holds_iff {r : OpRow} {w : Word} : r.holds w = true ↔ w &&& r.mask = r.bits := decide_eq_true_iff

/-! ### What the decoder can answer -/

theorem decodeFamily0_eq_none_iff {nnn : Imm12} :
    decodeFamily0 nnn = none ↔ nnn ≠ 0x000 ∧ nnn ≠ 0x0E0 ∧ nnn ≠ 0x0EE := by
  rw [decodeFamily0]
  split <;> simp_all [← BitVec.toNat_inj]

theorem decodeFamily8_eq_none_iff {x y : RegIdx} {n : Nibble} :
    decodeFamily8 x y n = none ↔ n ∈ [0x8#4, 0x9#4, 0xA#4, 0xB#4, 0xC#4, 0xD#4, 0xF#4] := by
  rw [decodeFamily8]
  split <;> simp_all [← BitVec.toNat_inj]
  omega

theorem decodeFamilyE_eq_none_iff {x : RegIdx} {nn : Byte} :
    decodeFamilyE x nn = none ↔ nn ≠ 0x9E ∧ nn ≠ 0xA1 := by
  rw [decodeFamilyE]
  split <;> simp_all [← BitVec.toNat_inj]

theorem decodeFamilyF_eq_none_iff {x : RegIdx} {nn : Byte} :
    decodeFamilyF x nn = none ↔
      nn ∉ [0x07#8, 0x0A#8, 0x15#8, 0x18#8, 0x1E#8, 0x29#8, 0x33#8, 0x55#8, 0x65#8] := by
  rw [decodeFamilyF]
  split <;> simp_all [← BitVec.toNat_inj]

theorem row_of_decodeFamily0 {nnn : Imm12} {i : Instr} (h : decodeFamily0 nnn = some i) :
    i.row.mask = 0xFFFF ∧ i.row.bits = encNNN 0x0 nnn := by
  rw [decodeFamily0] at h
  split at h <;> cases h
  all_goals
    obtain rfl := (BitVec.toNat_eq_nat.1 ‹nnn.toNat = _›).2
    exact ⟨rfl, rfl⟩

theorem row_of_decodeFamily8 {x y : RegIdx} {n : Nibble} {i : Instr} (h : decodeFamily8 x y n = some i) :
    i.row.mask = 0xF00F ∧ i.row.bits = encXYN 0x8 0 0 n := by
  rw [decodeFamily8] at h
  split at h <;> cases h
  all_goals
    obtain rfl := (BitVec.toNat_eq_nat.1 ‹n.toNat = _›).2
    exact ⟨rfl, rfl⟩

theorem row_of_decodeFamilyE {x : RegIdx} {nn : Byte} {i : Instr} (h : decodeFamilyE x nn = some i) :
    i.row.mask = 0xF0FF ∧ i.row.bits = encXNN 0xE 0 nn := by
  rw [decodeFamilyE] at h
  split at h <;> cases h
  all_goals
    obtain rfl := (BitVec.toNat_eq_nat.1 ‹nn.toNat = _›).2
    exact ⟨rfl, rfl⟩

theorem row_of_decodeFamilyF {x : RegIdx} {nn : Byte} {i : Instr} (h : decodeFamilyF x nn = some i) :
    i.row.mask = 0xF0FF ∧ i.row.bits = encXNN 0xF 0 nn := by
  rw [decodeFamilyF] at h
  split at h <;> cases h
  all_goals
    obtain rfl := (BitVec.toNat_eq_nat.1 ‹nn.toNat = _›).2
    exact ⟨rfl, rfl⟩

/-- The families 0, 8, E and F are decoded further; in the others every word is an instruction, chosen by the family alone
(R64). -/
theorem decodeWord_cases (w : Word) :
    (fieldOp w = 0x0 ∧ decodeWord w = decodeFamily0 (fieldNNN w)) ∨
    (fieldOp w = 0x8 ∧ decodeWord w = decodeFamily8 (fieldX w) (fieldY w) (fieldN w)) ∨
    (fieldOp w = 0xE ∧ decodeWord w = decodeFamilyE (fieldX w) (fieldNN w)) ∨
    (fieldOp w = 0xF ∧ decodeWord w = decodeFamilyF (fieldX w) (fieldNN w)) ∨
    (fieldOp w ∉ [0x0#4, 0x8#4, 0xE#4, 0xF#4] ∧
      ∃ i, decodeWord w = some i ∧ i.row.mask = 0xF000 ∧ i.row.bits = encNNN (fieldOp w) 0) := by
  rw [decodeWord]
  split
  case h_1 hop => exact .inl ⟨(BitVec.toNat_eq_nat.1 hop).2, rfl⟩
  case h_9 hop => exact .inr (.inl ⟨(BitVec.toNat_eq_nat.1 hop).2, rfl⟩)
  case h_15 hop => exact .inr (.inr (.inl ⟨(BitVec.toNat_eq_nat.1 hop).2, rfl⟩))
  case h_16 =>
    have hop : (fieldOp w).toNat = 15 := by simp only [imp_false] at *; omega
    exact .inr (.inr (.inr (.inl ⟨(BitVec.toNat_eq_nat.1 hop).2, rfl⟩)))
  all_goals
    rw [(BitVec.toNat_eq_nat.1 ‹(fieldOp w).toNat = _›).2]
    exact .inr (.inr (.inr (.inr ⟨by decide, _, rfl, rfl, rfl⟩)))

/-- Settles O3: each family's decoder refuses the words of its list, and the other families refuse none. -/
theorem illegalWordsAreExactlyThoseListed : Obligations.IllegalWordsAreExactlyThoseListed := by
  intro w
  rcases decodeWord_cases w with ⟨hop, e⟩ | ⟨hop, e⟩ | ⟨hop, e⟩ | ⟨hop, e⟩ | ⟨hop, i, e, -⟩
  · rw [e, decodeFamily0_eq_none_iff]; simp [hop]
  · rw [e, decodeFamily8_eq_none_iff]; simp [hop]
  · rw [e, decodeFamilyE_eq_none_iff]; simp [hop]
  · rw [e, decodeFamilyF_eq_none_iff]; simp [hop]
  · simp_all

/-! ### The decoder and the opcode map -/

/-- A decoded word matches the row of its instruction. -/
theorem holds_of_decodeWord {w : Word} {i : Instr} (h : decodeWord w = some i) : i.row.holds w = true := by
  rw [holds_iff]
  rcases decodeWord_cases w with ⟨hop, e⟩ | ⟨hop, e⟩ | ⟨hop, e⟩ | ⟨hop, e⟩ | ⟨-, j, e, hmask, hbits⟩
  · obtain ⟨hmask, hbits⟩ := row_of_decodeFamily0 (e ▸ h)
    rw [hmask, hbits, ← hop, ← word_eq_encNNN]
    exact BitVec.and_allOnes
  · obtain ⟨hmask, hbits⟩ := row_of_decodeFamily8 (e ▸ h)
    rw [hmask, hbits, and_family_n, hop]
  · obtain ⟨hmask, hbits⟩ := row_of_decodeFamilyE (e ▸ h)
    rw [hmask, hbits, and_family_nn, hop]
  · obtain ⟨hmask, hbits⟩ := row_of_decodeFamilyF (e ▸ h)
    rw [hmask, hbits, and_family_nn, hop]
  · cases e.symm.trans h
    rw [hmask, hbits, and_family]

theorem fieldOp_of_and_family {w w' : Word} (h : w &&& 0xF000 = w' &&& 0xF000) : fieldOp w = fieldOp w' := by
  rw [and_family, and_family] at h
  simpa using congrArg fieldOp h

theorem fields_of_and_family_n {w w' : Word} (h : w &&& 0xF00F = w' &&& 0xF00F) :
    fieldOp w = fieldOp w' ∧ fieldN w = fieldN w' := by
  rw [and_family_n, and_family_n] at h
  exact ⟨by simpa using congrArg fieldOp h, by simpa using congrArg fieldN h⟩

theorem fields_of_and_family_nn {w w' : Word} (h : w &&& 0xF0FF = w' &&& 0xF0FF) :
    fieldOp w = fieldOp w' ∧ fieldNN w = fieldNN w' := by
  rw [and_family_nn, and_family_nn] at h
  exact ⟨by simpa using congrArg fieldOp h, by simpa using congrArg fieldNN h⟩

/-- A word that matches the row of an instruction is decoded to an instruction of that row: under the row's mask it agrees
with the encoded instruction, so the fields that choose the instruction are the same. -/
theorem decodeWord_of_holds {w : Word} {i : Instr} (h : i.row.holds w = true) :
    ∃ j, decodeWord w = some j ∧ j.row = i.row := by
  have hagree : w &&& i.row.mask = encode i &&& i.row.mask :=
    (holds_iff.1 h).trans (holds_iff.1 (holds_of_decodeWord (decodeWord_encode i))).symm
  cases i with
  | idle | cls | ret =>
    obtain rfl : w = _ := (BitVec.and_allOnes (x := w)).symm.trans hagree
    exact ⟨_, rfl, rfl⟩
  | jp | call | sei | snei | ser | ldi | addi | sner | lda | jpv0 | rnd | drw =>
    rw [decodeWord, fieldOp_of_and_family hagree]
    simp only [encode, fieldOp_encNNN, fieldOp_encXNN, fieldOp_encXYN]
    exact ⟨_, rfl, rfl⟩
  | mov | or | and | xor | add | sub | shr | sub7 | shl =>
    obtain ⟨hop, hn⟩ := fields_of_and_family_n hagree
    rw [decodeWord, hop, hn]
    simp only [encode, fieldOp_encXYN, fieldN_encXYN]
    exact ⟨_, rfl, rfl⟩
  | skp | sknp | gdt | wkey | sdt | sst | adda | font | bcd | stm | ldm =>
    obtain ⟨hop, hnn⟩ := fields_of_and_family_nn hagree
    rw [decodeWord, hop, hnn]
    simp only [encode, fieldOp_encXNN, fieldNN_encXNN]
    exact ⟨_, rfl, rfl⟩

theorem row_mem_opcodeMap (i : Instr) : i.row ∈ opcodeMap := by
  cases i <;> exact List.mem_of_elem_eq_true rfl

theorem holds_iff_decodeWord {w : Word} {r : OpRow} (hr : r ∈ opcodeMap) :
    r.holds w = true ↔ ∃ i, decodeWord w = some i ∧ i.row = r := by
  obtain ⟨i, -, rfl⟩ := List.mem_map.1 hr
  constructor
  · exact decodeWord_of_holds
  · rintro ⟨j, hj, hrow⟩
    exact hrow ▸ holds_of_decodeWord hj

/-- Settles O2: a match is an instruction of the row, and a word without one has no instruction that would match. -/
theorem wordIsAnInstructionExactlyByItsRow : Obligations.WordIsAnInstructionExactlyByItsRow := by
  refine fun w => ⟨fun r hr => holds_iff_decodeWord hr, fun hnone => ?_, fun hnone r hr => ?_⟩
  · refine Option.eq_none_iff_forall_ne_some.2 fun i hi => ?_
    exact Bool.false_ne_true ((hnone i.row (row_mem_opcodeMap i)).symm.trans (holds_of_decodeWord hi))
  · refine Bool.eq_false_iff.2 fun hholds => ?_
    obtain ⟨i, hi, -⟩ := (holds_iff_decodeWord hr).1 hholds
    exact nomatch hnone.symm.trans hi

end Sys2Proof.Proofs

/-! PROOFS. The engine step (`40_engine_step.md` R80 to R90): it always answers, it runs the decoded word, where `pc` goes, and
the idle, suspended and halted machine. -/

namespace Sys2Proof.Proofs

open Sys2Proof.Machine Sys2Proof.Safety Sys2Proof.Laws

/-! ### Every instruction and every step answers (R80, R176) -/

theorem skipOnKey_answers (down : Bool) (w : Word) (x : RegIdx) (s : State) : ∃ t, skipOnKey down w x s = .next t := by
  rcases skipOnKey_cases down w x s with ⟨-, e⟩ | ⟨_, e⟩
  · exact ⟨_, e⟩
  · exact ⟨_, e⟩

theorem exec_answers (i : Instr) (s : State) : ∃ t, exec i s = .next t := by
  cases i with
  | ret =>
    rcases exec_ret_cases s with ⟨-, e⟩ | ⟨_, e⟩
    · exact ⟨_, e⟩
    · exact ⟨_, e⟩
  | call nnn =>
    rcases exec_call_cases nnn s with ⟨-, e⟩ | ⟨_, e⟩
    · exact ⟨_, e⟩
    · exact ⟨_, e⟩
  | skp | sknp => exact skipOnKey_answers _ _ _ s
  | idle | cls | jp | jpv0 | sei | snei | ser | sner | ldi | addi | mov | or | and | xor | add | sub | shr | sub7 | shl | rnd
  | lda | drw | gdt | wkey | sdt | sst | adda | font | bcd | stm | ldm => exact ⟨_, rfl⟩

theorem step_answers (s : State) : ∃ t, step s = .next t := by
  rcases step_cases s with ⟨-, e⟩ | ⟨-, -, e⟩ | ⟨-, -, i, -, e⟩ | ⟨-, -, -, e⟩
  · exact ⟨s, e⟩
  · exact ⟨s, e⟩
  · exact e ▸ exec_answers i s
  · exact ⟨_, e⟩

/-- Settles O8: a gated step and a fault are next states, and so is what each instruction does. -/
theorem stepAndExecAlwaysAnswerANextState : Obligations.StepAndExecAlwaysAnswerANextState :=
  ⟨step_answers, exec_answers⟩

/-! ### The program counter after an instruction (R86, R87, R90) -/

theorem skipIf_pc_cases (c : Bool) (s : State) : (skipIf c s).pc = s.pc + 2 ∨ (skipIf c s).pc = s.pc + 4 := by
  cases c with
  | false => exact .inl rfl
  | true => exact .inr rfl

/-- A key skip advances, or faults and stays where it is. -/
theorem pc_of_skipOnKey {down : Bool} {w : Word} {x : RegIdx} {s t : State} (h : skipOnKey down w x s = .next t) :
    t.pc = s.pc + 2 ∨ t.pc = s.pc + 4 ∨ (t.pc = s.pc ∧ t.fault.isSome = true) := by
  rcases skipOnKey_cases down w x s with ⟨-, e⟩ | ⟨_, e⟩
  · cases e.symm.trans h
    exact .inr (.inr ⟨rfl, rfl⟩)
  · cases e.symm.trans h
    exact (skipIf_pc_cases _ s).imp_right .inl

theorem pc_of_exec_of_not_skip {i : Instr} {s t : State} (h : exec i s = .next t) (hpc : setsPc i = false)
    (hskip : isSkip i = false) : t.pc = s.pc + 2 := by
  cases i with
  | idle | jp | call | ret | jpv0 => cases hpc
  | sei | snei | ser | sner | skp | sknp => cases hskip
  | stm x => cases h; exact congrArg (· + 2) (storeRegs_pc _ s)
  | ldm x => cases h; exact congrArg (· + 2) (loadRegs_pc _ s)
  | cls | ldi | addi | mov | or | and | xor | add | sub | shr | sub7 | shl | rnd | lda | drw | gdt | wkey | sdt | sst | adda
  | font | bcd => cases h; rfl

theorem pc_of_exec_of_skip {i : Instr} {s t : State} (h : exec i s = .next t) (hskip : isSkip i = true) :
    t.pc = s.pc + 2 ∨ t.pc = s.pc + 4 ∨ (t.pc = s.pc ∧ t.fault.isSome = true ∧ mayFault i = true) := by
  cases i with
  | sei | snei | ser | sner => cases h; exact (skipIf_pc_cases _ s).imp_right .inl
  | skp | sknp => exact (pc_of_skipOnKey h).imp_right (Or.imp_right fun ⟨hpc, hfault⟩ => ⟨hpc, hfault, rfl⟩)
  | _ => cases hskip

/-- Settles O10: the instructions that are no skips end with the default advance, and the skips with one of the two advances
unless they fault. -/
theorem defaultAdvanceAndSkipAdvance : Obligations.DefaultAdvanceAndSkipAdvance :=
  fun _ _ _ h hpc => ⟨pc_of_exec_of_not_skip h hpc, pc_of_exec_of_skip h⟩

/-! ### What the other transactions leave alone -/

theorem load_frame (bytes : List Byte) (s : State) : load bytes s = { s with mem := (load bytes s).mem } := by
  rcases load_cases bytes s with ⟨-, e⟩ | ⟨-, -, e⟩ | ⟨-, -, e⟩ <;> rw [e]
  exact storeBytes_frame _ bytes s

theorem tickTimers_frame (elapsed : Nat) (s : State) : tickTimers elapsed s =
    { s with dt := (tickTimers elapsed s).dt, st := (tickTimers elapsed s).st, tacc := (tickTimers elapsed s).tacc } := by
  rcases tickTimers_cases elapsed s with ⟨-, e⟩ | ⟨-, -, e⟩ | ⟨-, -, e⟩ <;> rw [e]
  rfl

theorem keyUp_frame (k : KeyCode) (s : State) : keyUp k s = { s with key := (keyUp k s).key } := by
  rcases keyUp_cases k s with ⟨-, e⟩ | ⟨-, e⟩ <;> rw [e]
  rfl

/-- Without a wait to end, a key going down is an entry in the key table. -/
theorem keyDown_frame_of_not_wait (k : KeyCode) {s : State} (hw : s.wait = false) :
    keyDown k s = { s with key := (keyDown k s).key } := by
  rcases keyDown_cases k s with ⟨-, e⟩ | ⟨-, -, e⟩ | ⟨-, hwait, -⟩
  · rw [e]
  · rw [e]; rfl
  · exact absurd (hw.symm.trans hwait) nofun

/-! ### The suspended machine (R82) -/

theorem halted_withWait (s : State) (w : Bool) : halted { s with wait := w } = halted s := rfl

/-- A tick acts on the timers whether the machine waits or not. -/
theorem tickTimers_withWait (elapsed : Nat) (s : State) (w : Bool) :
    tickTimers elapsed { s with wait := w } = { tickTimers elapsed s with wait := w } := by
  simp only [tickTimers, halted_withWait]
  split
  · rfl
  · split <;> rfl

/-- A key going up is noted whether the machine waits or not. -/
theorem keyUp_withWait (k : KeyCode) (s : State) (w : Bool) :
    keyUp k { s with wait := w } = { keyUp k s with wait := w } := by
  rw [keyUp, keyUp, halted_withWait]
  cases halted s with
  | true => rfl
  | false => rfl

theorem withWait_of_wait {s : State} (hw : s.wait = true) : { s with wait := true } = s := by
  rw [← hw]

/-- Of all transactions, only a reset and a key going down end a wait. -/
theorem wait_of_transact {tr : Transaction} {s t : State} (h : transact tr s = .next t) (hw : s.wait = true) :
    t.wait = true ∨ tr = .reset ∨ ∃ k, tr = .keyDown k := by
  cases tr with
  | reset => exact .inr (.inl rfl)
  | keyDown k => exact .inr (.inr ⟨k, rfl⟩)
  | load bytes => cases h; rw [load_frame]; exact .inl hw
  | step => cases (step_of_gated (.inr hw)).symm.trans h; exact .inl hw
  | tickTimers elapsed => cases h; rw [tickTimers_frame]; exact .inl hw
  | keyUp k => cases h; rw [keyUp_frame]; exact .inl hw

/-- Settles O51: the second gate stops the step, the transactions that leave `WAIT` are known, and ticks and key-ups commute
with setting it. -/
theorem suspendedUntilKeyDownOrReset : Obligations.SuspendedUntilKeyDownOrReset := by
  intro s hw
  have hs := withWait_of_wait hw
  refine ⟨step_of_gated (.inr hw), fun tr t h hopen => ?_, fun elapsed => ?_, fun k => ?_⟩
  · exact (wait_of_transact h hw).resolve_left (hopen ▸ nofun)
  · calc tickTimers elapsed s
      _ = tickTimers elapsed { s with wait := true } := by rw [hs]
      _ = { tickTimers elapsed s with wait := true } := tickTimers_withWait elapsed s true
      _ = { tickTimers elapsed { s with wait := false } with wait := true } := by rw [tickTimers_withWait elapsed s false]
  · calc keyUp k s
      _ = keyUp k { s with wait := true } := by rw [hs]
      _ = { keyUp k s with wait := true } := keyUp_withWait k s true
      _ = { keyUp k { s with wait := false } with wait := true } := by rw [keyUp_withWait k s false]

/-! ### The halted machine (R81, R195) -/

theorem transact_of_halted {tr : Transaction} {s : State} (hf : s.fault ≠ none) (hreset : tr ≠ .reset) :
    transact tr s = .next s := by
  have hhalted := (halted_iff s).2 hf
  cases tr with
  | reset => exact absurd rfl hreset
  | step => exact step_of_gated (.inl hf)
  | load | tickTimers | keyDown | keyUp => exact congrArg Host.Outcome.next (if_pos hhalted)

theorem transactAll_cons_of_next {tr : Transaction} {s u : State} (h : transact tr s = .next u) (ts : List Transaction) :
    transactAll (tr :: ts) s = transactAll ts u := by
  rw [transactAll, h]

theorem transactAll_of_halted {ts : List Transaction} {s : State} (hf : s.fault ≠ none) (hreset : .reset ∉ ts) :
    transactAll ts s = .next s := by
  induction ts with
  | nil => rfl
  | cons tr ts ih =>
    have hhead : tr ≠ .reset := (List.ne_of_not_mem_cons hreset).symm
    exact (transactAll_cons_of_next (transact_of_halted hf hhead) ts).trans (ih (List.not_mem_of_not_mem_cons hreset))

/-- Settles O52: each transaction but reset leaves a halted state, so by induction a list of them does. -/
theorem haltedUntilReset : Obligations.HaltedUntilReset :=
  fun s hf => ⟨fun _ hreset => transactAll_of_halted hf hreset, resetCore s, rfl, resetCore_fault s⟩

/-! ### The step of an open machine (R83, R85) -/

theorem step_of_decodeWord {s : State} {i : Instr} (hf : s.fault = none) (hw : s.wait = false)
    (hd : decodeWord (fetchWord s) = some i) : step s = exec i s := by
  rw [step_open s hf hw, hd]

theorem decodeWord_of_decode {hi lo : Byte} {bytes rest : List Byte} {i : Instr}
    (h : decode (hi :: lo :: bytes) = .ok (i, rest)) : decodeWord (wordOfBytes hi lo) = some i := by
  rw [decode] at h
  split at h
  case h_1 hd => cases h; exact hd
  case h_2 => cases h

/-- Settles O6: the two fetched bytes make up the fetched word, and a step runs the instruction that word is. -/
theorem stepRunsTheDecodedInstruction : Obligations.StepRunsTheDecodedInstruction :=
  fun _ _ _ hf hw hd => step_of_decodeWord hf hw (decodeWord_of_decode hd)

/-! ### The idle machine (R84) -/

theorem decodeWord_zero : decodeWord 0x0000 = some .idle := rfl

theorem step_of_endedIdle {s : State} (h : EndedIdle s) : step s = .next s := by
  obtain ⟨hf, hw, hfetch⟩ := h
  have hd : decodeWord (fetchWord s) = some .idle := hfetch ▸ decodeWord_zero
  exact (step_of_decodeWord hf hw hd).trans (exec_idle s)

/-- A machine stays idle at its `pc` while both gates, `pc` and memory keep their values. -/
theorem endedIdle_of_same {s t : State} (hs : EndedIdle s) (hf : t.fault = s.fault) (hw : t.wait = s.wait)
    (hm : t.mem = s.mem) (hp : t.pc = s.pc) : EndedIdle t ∧ t.pc = s.pc := by
  obtain ⟨hfault, hwait, hfetch⟩ := hs
  exact ⟨⟨hf.trans hfault, hw.trans hwait, (fetchWord_congr hm hp).trans hfetch⟩, hp⟩

/-- Settles O11: ticks and key events change only timers and keys of an idle machine, which it does not read. -/
theorem idleChangesNothingForEver : Obligations.IdleChangesNothingForEver := by
  refine ⟨decodeWord_zero, exec_idle, fun s hs => ⟨step_of_endedIdle hs, fun elapsed => ?_, fun k => ?_, fun k => ?_⟩⟩
  · rw [tickTimers_frame]
    exact endedIdle_of_same hs rfl rfl rfl rfl
  · have ⟨_, hwait, _⟩ := hs
    rw [keyDown_frame_of_not_wait k hwait]
    exact endedIdle_of_same hs rfl rfl rfl rfl
  · rw [keyUp_frame]
    exact endedIdle_of_same hs rfl rfl rfl rfl

end Sys2Proof.Proofs

/-! PROOFS. The control-transfer instructions (`41_control_flow.md` R100 to R107), and the states that no step changes
(`40_engine_step.md` R89). -/

namespace Sys2Proof.Proofs

open Sys2Proof.Machine Sys2Proof.Safety Sys2Proof.Laws

/-! ### The skips (R87, R103 to R106) -/

/-- The low nibble of `SER` is not decoded (R67). -/
theorem decodeWord_ser (x y : RegIdx) (n : Nibble) : decodeWord (encXYN 0x5 x y n) = some (.ser x y) := by
  simp only [decodeWord, fieldOp_encXYN, fieldX_encXYN, fieldY_encXYN]; rfl

/-- The low nibble of `SNER` is not decoded (R67). -/
theorem decodeWord_sner (x y : RegIdx) (n : Nibble) : decodeWord (encXYN 0x9 x y n) = some (.sner x y) := by
  simp only [decodeWord, fieldOp_encXYN, fieldX_encXYN, fieldY_encXYN]; rfl

section
variable (p : Prop) [Decidable p] (s : State)

theorem skipIf_decide : skipIf (decide p) s = { s with pc := if p then s.pc + 4 else s.pc + 2 } := by
  simp only [skipIf_eq, decide_eq_true_eq]

theorem skipIf_decide_not : skipIf (decide (¬ p)) s = { s with pc := if p then s.pc + 2 else s.pc + 4 } := by
  simp only [skipIf_eq, decide_eq_true_eq, ite_not]

end

/-- Settles O16: a skip on the comparison, and one on its negation. -/
theorem immediateSkips : Obligations.ImmediateSkips :=
  fun x nn s => ⟨decodeWord_encode (.sei x nn), decodeWord_encode (.snei x nn),
    (exec_sei x nn s).trans (congrArg _ (skipIf_decide _ s)),
    (exec_snei x nn s).trans (congrArg _ (skipIf_decide_not _ s))⟩

/-- Settles O17: as for the immediate skips, with a second register in the place of the byte. -/
theorem registerSkips : Obligations.RegisterSkips :=
  fun x y n s => ⟨decodeWord_ser x y n, decodeWord_sner x y n,
    (exec_ser x y s).trans (congrArg _ (skipIf_decide _ s)),
    (exec_sner x y s).trans (congrArg _ (skipIf_decide_not _ s))⟩

/-! ### The jumps (R101, R107) -/

/-- Settles O14: the target is the immediate, zero-extended. -/
theorem jumpSetsOnlyPc : Obligations.JumpSetsOnlyPc :=
  fun nnn s => ⟨decodeWord_encode (.jp nnn), setPc s (zextImm nnn), exec_jp nnn s, rfl, zextImm_toNat nnn⟩

/-- The target of `JPV0` is a sum of numbers: a byte and 12 bits do not fill a word. -/
theorem jpv0Target_toNat (nnn : Imm12) (b : Byte) : (zextImm nnn + zextByte b).toNat = b.toNat + nnn.toNat := by
  have hnnn : nnn.toNat < 4096 := nnn.isLt
  have hb : b.toNat < 256 := b.isLt
  rw [BitVec.toNat_add, zextImm_toNat, zextByte_toNat]
  omega

/-- Settles O18: the sum does not wrap, as it is at most 0xFF + 0xFFF. -/
theorem jumpWithOffsetAddsV0 : Obligations.JumpWithOffsetAddsV0 := by
  intro nnn s
  have htarget := jpv0Target_toNat nnn (getV s 0)
  have hnnn : nnn.toNat < 4096 := nnn.isLt
  have hv0 : (getV s 0).toNat < 256 := (getV s 0).isLt
  refine ⟨decodeWord_encode (.jpv0 nnn), _, exec_jpv0 nnn s, rfl, htarget, ?_⟩
  rw [setPc_pc, htarget]
  omega

/-! ### Subroutines (R100, R102) -/

/-- Settles O13: with an address held the pop succeeds, with none it is a fault. -/
theorem returnPopsOrUnderflows : Obligations.ReturnPopsOrUnderflows :=
  ⟨decodeWord_encode .ret, exec_ret_of_pos, fun s hempty => (exec_ret_of_empty s hempty).trans (raise_eq _ _ s)⟩

/-- Settles O15: with room for an address the push succeeds and writes one entry, with none it is a fault. -/
theorem callPushesOrOverflows : Obligations.CallPushesOrOverflows := by
  intro nnn s
  refine ⟨decodeWord_encode (.call nnn), fun hroom => ?_, fun hfull => ?_⟩
  · refine ⟨_, exec_call_of_lt nnn s hroom, rfl, zextImm_toNat nnn, rfl, fun k hk => ?_⟩
    rw [setPc_stack, Vector.getElem_set]
    by_cases htop : s.sp.val = k
    · rw [if_pos htop, if_pos htop.symm]
      exact BitVec.toNat_add s.pc 2
    · rw [if_neg htop, if_neg (Ne.symm htop)]
  · exact (exec_call_of_full nnn s hfull).trans (raise_eq _ _ s)

/-! ### The states that no step changes (R89) -/

/-- The idle word is the only one that decodes to `IDLE` (R84). -/
theorem decodeWord_eq_idle_iff (w : Word) : decodeWord w = some .idle ↔ w = 0x0000 := by
  constructor
  · intro h
    exact (BitVec.and_allOnes (x := w)).symm.trans (holds_iff.1 (holds_of_decodeWord h))
  · rintro rfl
    exact decodeWord_zero

theorem setPc_eq_self_iff (s : State) (w : Word) : setPc s w = s ↔ w.toNat = s.pc.toNat := by
  rw [BitVec.toNat_inj]
  constructor
  · exact congrArg State.pc
  · rintro rfl
    rfl

theorem exec_jp_eq_self_iff (nnn : Imm12) (s : State) :
    exec (.jp nnn) s = .next s ↔ nnn.toNat = s.pc.toNat := by
  rw [exec_jp, Host.Outcome.next.injEq, setPc_eq_self_iff, zextImm_toNat]

theorem exec_jpv0_eq_self_iff (nnn : Imm12) (s : State) :
    exec (.jpv0 nnn) s = .next s ↔ (getV s 0).toNat + nnn.toNat = s.pc.toNat := by
  rw [exec_jpv0, Host.Outcome.next.injEq, setPc_eq_self_iff, jpv0Target_toNat]

section
variable {s : State} (hf : s.fault = none)
include hf

/-- A fault changes a state that has none: `FAULT` is set. -/
theorem raise_ne_self (k : FaultKind) (w : Word) : raise k w s ≠ .next s := by
  intro h
  injection h with h
  exact nomatch (congrArg State.fault h).trans hf

/-- `RET` lowers `SP` or faults. -/
theorem exec_ret_ne_self : exec .ret s ≠ .next s := by
  intro h
  rcases exec_ret_cases s with ⟨-, e⟩ | ⟨hpos, e⟩
  · exact raise_ne_self hf _ _ (e.symm.trans h)
  · injection e.symm.trans h with h
    have hsp : s.sp.val - 1 = s.sp.val := congrArg (fun t => t.sp.val) h
    omega

/-- `CALL` raises `SP` or faults. -/
theorem exec_call_ne_self (nnn : Imm12) : exec (.call nnn) s ≠ .next s := by
  intro h
  rcases exec_call_cases nnn s with ⟨-, e⟩ | ⟨_, e⟩
  · exact raise_ne_self hf _ _ (e.symm.trans h)
  · injection e.symm.trans h with h
    exact Nat.succ_ne_self s.sp.val (congrArg (fun t => t.sp.val) h)

/-- An instruction that does not set `pc` itself advances it or faults. -/
theorem exec_ne_self_of_advance {i : Instr} (hpc : setsPc i = false) : exec i s ≠ .next s := by
  intro h
  have advances : s.pc = s.pc + 2 ∨ s.pc = s.pc + 4 := by
    cases hskip : isSkip i with
    | false => exact .inl (pc_of_exec_of_not_skip h hpc hskip)
    | true =>
      rcases pc_of_exec_of_skip h hskip with h2 | h4 | ⟨-, hfault, -⟩
      · exact .inl h2
      · exact .inr h4
      · simp [hf] at hfault
  bv_omega

/-- The instructions that change nothing: `IDLE` and the jumps to `pc`. -/
theorem exec_eq_self_iff (i : Instr) :
    exec i s = .next s ↔ i = .idle ∨ (∃ nnn, i = .jp nnn ∧ nnn.toNat = s.pc.toNat) ∨
      ∃ nnn, i = .jpv0 nnn ∧ (getV s 0).toNat + nnn.toNat = s.pc.toNat := by
  cases i with
  | idle => simp [exec_idle]
  | jp nnn => simp [exec_jp_eq_self_iff]
  | jpv0 nnn => simp [exec_jpv0_eq_self_iff]
  | ret => simp [exec_ret_ne_self hf]
  | call nnn => simp [exec_call_ne_self hf]
  | _ => exact iff_of_false (exec_ne_self_of_advance hf rfl) (by simp)

end

/-- Settles O12: a closed gate stops the step; past both gates a step that faults changes `FAULT`, and one that executes an
instruction changes nothing exactly when the instruction does not. -/
theorem stationaryStatesAreExactlyThese : Obligations.StationaryStatesAreExactlyThese := by
  intro s
  rw [← decodeWord_eq_idle_iff]
  rcases step_cases s with ⟨hf, e⟩ | ⟨-, hw, e⟩ | ⟨hf, hw, i, hd, e⟩ | ⟨hf, hw, hd, e⟩
  · exact iff_of_true e (.inl hf)
  · exact iff_of_true e (.inr (.inl hw))
  · rw [e, exec_eq_self_iff hf, hd]
    simp [hf, hw]
  · rw [e, hd]
    simp [hf, hw, raise_ne_self hf]

end Sys2Proof.Proofs

/-! PROOFS. The arithmetic and logic instructions that write one register, and those that write a result and then the
carry or borrow of it (`42_alu.md` R120 to R127, R129). -/

namespace Sys2Proof.Proofs

open Sys2Proof.Machine Sys2Proof.Laws

/-! ### One register written, no flag (R120 to R125) -/

/-- Settles O19: `V[x]` is the one register written, by `ADDI` with a sum of bytes. -/
theorem loadImmediateAndAddImmediate : Obligations.LoadImmediateAndAddImmediate := by
  intro x nn s
  refine ⟨decodeWord_encode (.ldi x nn), decodeWord_encode (.addi x nn),
    ⟨_, exec_ldi x nn s, rfl, fun k => getV_setV s x k nn⟩, ⟨_, exec_addi x nn s, rfl, fun k => ?_⟩⟩
  rw [getV_advance, getV_setV, apply_ite BitVec.toNat, BitVec.toNat_add]

/-- An instruction that writes `b` to `V[x]` and advances, with the bits of `b` given by `bit`. -/
theorem writesBits_of_exec {i : Instr} {s : State} {x : RegIdx} {b : Byte} {bit : Nat → Bool}
    (h : exec i s = .next (advance (setV s x b))) (hbit : ∀ n, b.getLsbD n = bit n) :
    ∃ t, exec i s = .next t ∧ t = { s with v := t.v, pc := s.pc + 2 } ∧ (∀ k, k ≠ x → getV t k = getV s k) ∧
      ∀ n, (getV t x).getLsbD n = bit n := by
  refine ⟨_, h, rfl, fun k hk => ?_, fun n => ?_⟩
  · rw [getV_advance, getV_setV, if_neg hk]
  · rw [getV_advance, getV_setV, if_pos rfl, hbit]

/-- Settles O20: each of the four writes one register, and its operation works bit by bit. -/
theorem copyAndLogicTouchNoFlag : Obligations.CopyAndLogicTouchNoFlag :=
  fun x y s => ⟨decodeWord_encode (.mov x y), decodeWord_encode (.or x y), decodeWord_encode (.and x y),
    decodeWord_encode (.xor x y), writesBits_of_exec (exec_mov x y s) fun _ => rfl,
    writesBits_of_exec (exec_or x y s) fun _ => BitVec.getLsbD_or,
    writesBits_of_exec (exec_and x y s) fun _ => BitVec.getLsbD_and,
    writesBits_of_exec (exec_xor x y s) fun _ => BitVec.getLsbD_xor⟩

/-! ### A result, then its flag (R126, R127, R129) -/

/-- The flag write keeps the result, unless `VF` is the destination. -/
theorem getV_setResultThenFlag_result {x : RegIdx} (hx : x ≠ 15) (r f : Byte) (s : State) :
    getV (setResultThenFlag x r f s) x = r := by
  rw [setResultThenFlag, getV_setVF, if_neg hx, getV_setV, if_pos rfl]

theorem carryFlag_toNat (a b : Byte) : (carryFlag a b).toNat = if 255 < a.toNat + b.toNat then 1 else 0 := by
  rw [carryFlag_eq, apply_ite BitVec.toNat]
  rfl

theorem borrowFlag_toNat (a b : Byte) : (borrowFlag a b).toNat = if a.toNat < b.toNat then 1 else 0 := by
  rw [borrowFlag_eq, apply_ite BitVec.toNat]
  rfl

theorem byteSub_toNat (a b : Byte) : (a - b).toNat = (a.toNat + 256 - b.toNat) % 256 := by
  have hb : b.toNat < 256 := b.isLt
  rw [BitVec.toNat_sub]
  omega

/-- Settles O21: the flag is written last, so it is the carry also when `VF` is the destination. -/
theorem addWritesSumThenCarry : Obligations.AddWritesSumThenCarry := by
  intro x y s
  refine ⟨decodeWord_encode (.add x y), _, exec_add x y s, rfl, ?_, fun hx => ?_, fun k hk h15 => ?_⟩
  · rw [getV_advance, getV_setResultThenFlag_flag, carryFlag_toNat]
  · rw [getV_advance, getV_setResultThenFlag_result hx, BitVec.toNat_add]
  · exact getV_setResultThenFlag_of_notMem (mt List.mem_singleton.1 hk) h15

/-- Settles O22: both run the one `subtract`, whose flag is written last, so it is the borrow also when `VF` is the
destination. -/
theorem subtractWritesDifferenceThenBorrow : Obligations.SubtractWritesDifferenceThenBorrow := by
  intro x y s
  refine ⟨decodeWord_encode (.sub x y), decodeWord_encode (.sub7 x y), _, exec_sub x y s, exec_sub7 x y s, rfl, ?_,
    fun hx => ?_, fun k hk h15 => ?_⟩
  · rw [getV_advance, subtract, getV_setResultThenFlag_flag, borrowFlag_toNat]
  · rw [getV_advance, subtract, getV_setResultThenFlag_result hx, byteSub_toNat]
  · exact getV_setResultThenFlag_of_notMem (mt List.mem_singleton.1 hk) h15

end Sys2Proof.Proofs

/-! PROOFS. The instructions that set the address register, and those that move the registers to memory and back
(`43_index_memory.md` R140, R142, R144, R145). -/

namespace Sys2Proof.Proofs

open Sys2Proof.Machine Sys2Proof.Laws

/-! ### The address register (R140, R142) -/

/-- Five times a byte does not wrap in a word: it is at most 1275. -/
theorem fontAddress_toNat (b : Byte) : (5 * zextByte b : Word).toNat = 5 * b.toNat := by
  have hb : b.toNat < 256 := b.isLt
  have hfive : (5 : Word).toNat = 5 := rfl
  rw [BitVec.toNat_mul, zextByte_toNat, hfive]
  omega

/-- Settles O25: `LDA` zero-extends its immediate, and `FONT` multiplies the whole byte without a wrap. -/
theorem loadAddressAndFontAddress : Obligations.LoadAddressAndFontAddress :=
  ⟨fun nnn s => ⟨decodeWord_encode (.lda nnn), _, exec_lda nnn s, rfl, zextImm_toNat nnn⟩,
    fun x s => ⟨decodeWord_encode (.font x), _, exec_font x s, rfl, fontAddress_toNat (getV s x)⟩⟩

/-! ### The register block in memory (R144, R145) -/

/-- `STM` leaves `V[k]` at `I + k`: no later store of the block falls on that byte. -/
theorem memRead_of_exec_stm {x : RegIdx} {s t : State} (h : exec (.stm x) s = .next t) {k : RegIdx} (hk : k ≤ x) :
    memRead t (indexAddr s k.val) = getV s k := by
  cases h
  exact memRead_storeRegs_same (regsUpTo x) (nodup_regsUpTo x) s k ((mem_regsUpTo x k).2 hk)

theorem memRead_of_exec_stm_of_outside {x : RegIdx} {s t : State} (h : exec (.stm x) s = .next t) {a : Nat}
    (ha : ∀ k, k ≤ x → ea a ≠ ea (indexAddr s k.val)) : memRead t a = memRead s a := by
  cases h
  exact memRead_storeRegs_other (regsUpTo x) s a fun k hk => ha k ((mem_regsUpTo x k).1 hk)

theorem getV_of_exec_ldm {x : RegIdx} {s t : State} (h : exec (.ldm x) s = .next t) (k : RegIdx) :
    getV t k = if k ≤ x then memRead s (indexAddr s k.val) else getV s k := by
  cases h
  simp only [getV_advance, getV_loadRegs, mem_regsUpTo]

/-- `STM` keeps `I`, so a later block at `I` has the same addresses (R146). -/
theorem indexAddr_of_exec_stm {x : RegIdx} {s t : State} (h : exec (.stm x) s = .next t) (k : Nat) :
    indexAddr t k = indexAddr s k := by
  rw [indexAddr, indexAddr, (fieldFrame_of_exec h).index rfl]

/-- Settles O28: the stores go to distinct bytes and change memory alone. -/
theorem storeRegistersWritesExactlyTheBlock : Obligations.StoreRegistersWritesExactlyTheBlock := by
  intro x s
  have hexec := exec_stm x s
  refine ⟨decodeWord_encode (.stm x), _, hexec, ?_, fun _ => memRead_of_exec_stm hexec,
    fun _ => memRead_of_exec_stm_of_outside hexec⟩
  rw [storeRegs_frame]
  rfl

/-- Settles O29: `LDM` reads the block at `I`, where an `STM` that kept `I` has left the registers. -/
theorem loadRegistersReadsTheBlock : Obligations.LoadRegistersReadsTheBlock := by
  intro x s
  refine ⟨decodeWord_encode (.ldm x), ⟨_, exec_ldm x s, ?_, getV_of_exec_ldm (exec_ldm x s)⟩,
    fun t u v hstore hload k hk => ?_⟩
  · rw [loadRegs_frame]
    rfl
  · calc getV u k
      _ = memRead t (indexAddr t k.val) := (getV_of_exec_ldm hload k).trans (if_pos hk)
      _ = memRead t (indexAddr s k.val) := by rw [indexAddr_of_exec_stm hstore]
      _ = getV s k := memRead_of_exec_stm hstore hk

end Sys2Proof.Proofs

/-! PROOFS. The display instructions: what `CLS` and `DRW` leave on the screen and in `VF` (`44_display.md` R150 to R152). -/

namespace Sys2Proof.Proofs

open Sys2Proof.Machine Sys2Proof.Laws

/-- Settles O30: `CLS` writes the blank screen and advances. -/
theorem clearScreenClearsEveryPixel : Obligations.ClearScreenClearsEveryPixel :=
  ⟨decodeWord_encode .cls, fun s => ⟨_, exec_cls s, rfl, getPixel_clearScreen⟩⟩

/-! ### The sprite on the screen (R151, R152) -/

/-- Bit `7 - j` of sprite byte `r` lands on row `y0 + r`, column `x0 + j`, and no other source bit lands there: 8 columns
and at most 32 rows are distinct after the wrap. -/
theorem sourceBit_rowOf_colOf (sprite : Nat → Byte) (x0 y0 : Nat) {n r j : Nat} (hn : n ≤ 32) (hr : r < n) (hj : j < 8) :
    sourceBit sprite x0 y0 n (rowOf (y0 + r)) (colOf (x0 + j)) = (sprite r).getLsbD (7 - j) := by
  rw [sourceBit, rowDist_rowOf y0 r (by omega), colDist_colOf x0 j (by omega), decide_eq_true hr, decide_eq_true hj]
  rfl

/-- A source bit can only come from the pixel's own distances to the sprite's corner, which place the pixel in the sprite. -/
theorem sourceBit_eq_false_of_outside (sprite : Nat → Byte) (x0 y0 n : Nat) {row : Fin 32} {col : Fin 64}
    (h : ∀ r j, r < n → j < 8 → ¬ (row = rowOf (y0 + r) ∧ col = colOf (x0 + j))) :
    sourceBit sprite x0 y0 n row col = false := by
  have hdist : ¬ (rowDist y0 row < n ∧ colDist x0 col < 8) := fun ⟨hr, hj⟩ =>
    h _ _ hr hj ⟨(rowOf_rowDist y0 row).symm, (colOf_colDist x0 col).symm⟩
  rw [sourceBit, ← Bool.decide_and, decide_eq_false hdist, Bool.false_and]

/-- `VF` after `DRW` with the pixels of the collision named by their coordinates. -/
theorem drawSprite_hit_val (x y : RegIdx) (n : Nibble) (s : State) :
    getV (drawSprite x y n s) 15 = 1 ↔ ∃ (r j : Nat) (row : Fin 32) (col : Fin 64), r < n.toNat ∧ j < 8 ∧
      row.val = ((getV s y).toNat + r) % 32 ∧ col.val = ((getV s x).toNat + j) % 64 ∧
      (memRead s (indexAddr s r)).getLsbD (7 - j) = true ∧ getPixel s.fb row col = true := by
  rw [drawSprite_hit]
  constructor
  · rintro ⟨r, hr, j, hj, hbit, hpixel⟩
    exact ⟨r, j, _, _, hr, hj, rfl, rfl, hbit, hpixel⟩
  · rintro ⟨r, j, row, col, hr, hj, hrow, hcol, hbit, hpixel⟩
    obtain rfl : row = rowOf _ := Fin.ext hrow
    obtain rfl : col = colOf _ := Fin.ext hcol
    exact ⟨r, hr, j, hj, hbit, hpixel⟩

/-- Settles O31: the pixel is XORed with the one source bit that lands on it, if any, and the flag is written last. -/
theorem drawXorsTheSpriteAndFlagsCollision : Obligations.DrawXorsTheSpriteAndFlagsCollision := by
  intro x y n s
  have hn : n.toNat < 16 := n.isLt
  refine ⟨decodeWord_encode (.drw x y n), _, exec_drw x y n s, rfl, fun row col r j hr hj hrow hcol => ?_,
    fun row col hout => ?_, drawSprite_getV x y n s, flag_of_exec (exec_drw x y n s) rfl List.not_mem_nil,
    drawSprite_hit_val x y n s⟩
  · obtain rfl : row = rowOf _ := Fin.ext hrow
    obtain rfl : col = colOf _ := Fin.ext hcol
    rw [advance_fb, drawSprite_pixel, sourceBit_rowOf_colOf _ _ _ (by omega) hr hj]
  · have hnone := sourceBit_eq_false_of_outside (fun q => memRead s (indexAddr s q)) (getV s x).toNat (getV s y).toNat
      n.toNat (row := row) (col := col) fun r j hr hj h =>
        hout r j hr hj (h.imp Fin.ext_iff.1 Fin.ext_iff.1)
    rw [advance_fb, drawSprite_pixel, hnone, Bool.xor_false]

end Sys2Proof.Proofs

/-! PROOFS. The key instructions: the wait for a key and what ends it, and the two skips on a key (`45_timer_key.md` R163 to
R165). -/

namespace Sys2Proof.Proofs

open Sys2Proof.Machine Sys2Proof.Laws

/-! ### The wait for a key (R163) -/

theorem transactAll_replicate_step_of_wait (n : Nat) {s : State} (hw : s.wait = true) :
    transactAll (List.replicate n .step) s = .next s := by
  induction n with
  | zero => rfl
  | succ n ih => exact (transactAll_cons_of_next (tr := .step) (step_of_gated (.inr hw)) _).trans ih

theorem tickTimers_wait (elapsed : Nat) (s : State) : (tickTimers elapsed s).wait = s.wait := by
  rw [tickTimers_frame]

theorem keyUp_wait (k : KeyCode) (s : State) : (keyUp k s).wait = s.wait := by
  rw [keyUp_frame]

/-- A key going down is entered in the key table, and ends a wait with its code in the waiting register (R185). -/
theorem keyDown_of_wait (k : KeyCode) {s : State} (hf : s.fault = none) (hw : s.wait = true) :
    keyDown k s = { setV (setKey s k true) s.waitReg (zextKey k) with wait := false } := by
  rcases keyDown_cases k s with ⟨hhalted, -⟩ | ⟨-, hopen, -⟩ | ⟨-, -, e⟩
  · exact absurd hf hhalted
  · exact absurd (hopen.symm.trans hw) nofun
  · exact e

theorem getV_keyDown_of_wait (k : KeyCode) {s : State} (hf : s.fault = none) (hw : s.wait = true) (r : RegIdx) :
    getV (keyDown k s) r = if r = s.waitReg then zextKey k else getV s r := by
  rw [keyDown_of_wait k hf hw]
  exact getV_setV (setKey s k true) s.waitReg r (zextKey k)

theorem getKey_keyDown (k : KeyCode) {s : State} (hf : s.fault = none) : getKey (keyDown k s) k = true := by
  have htable : getKey (setKey s k true) k = true := (getKey_setKey s k k true).trans (if_pos rfl)
  rcases keyDown_cases k s with ⟨hhalted, -⟩ | ⟨-, -, e⟩ | ⟨-, -, e⟩
  · exact absurd hf hhalted
  · rw [e]; exact htable
  · rw [e]; exact htable

/-- Settles O35: `WKEY` closes the gate of the step, ticks and key-ups keep `WAIT`, and a key going down ends the wait. -/
theorem waitForKeySuspendsUntilKeyDown : Obligations.WaitForKeySuspendsUntilKeyDown := by
  intro x s
  refine ⟨decodeWord_encode (.wkey x), _, exec_wkey x s, rfl, fun n => transactAll_replicate_step_of_wait n rfl,
    fun elapsed => tickTimers_wait elapsed _, fun k => keyUp_wait k _, fun hf k => ?_⟩
  have hresume := keyDown_of_wait k (s := advance { s with wait := true, waitReg := x }) hf rfl
  have hregs := getV_keyDown_of_wait k (s := advance { s with wait := true, waitReg := x }) hf rfl
  refine ⟨congrArg State.wait hresume, congrArg State.pc hresume, getKey_keyDown k hf, ?_, fun r hr => ?_⟩
  · exact (congrArg BitVec.toNat ((hregs x).trans (if_pos rfl))).trans (zextKey_toNat k)
  · exact (hregs r).trans (if_neg hr)

/-! ### The skips on a key (R164, R165) -/

/-- With a key named, the test skips when that key is in the state asked for, and changes `pc` alone. -/
theorem skipOnKey_of_key (down : Bool) (w : Word) {x : RegIdx} {s : State} {k : KeyCode} (hk : (getV s x).toNat = k.val) :
    skipOnKey down w x s = .next { s with pc := if getKey s k = down then s.pc + 4 else s.pc + 2 } := by
  have hlt : (getV s x).toNat < 16 := hk ▸ k.isLt
  obtain rfl : ⟨(getV s x).toNat, hlt⟩ = k := Fin.ext hk
  rw [skipOnKey_of_lt down w x s hlt, skipIf_decide]

/-- Settles O36: a skip on the key being down, and one on its being up; a value that names no key is a fault. -/
theorem keySkipsTestTheKeyOrFault : Obligations.KeySkipsTestTheKeyOrFault := by
  intro x s
  refine ⟨decodeWord_encode (.skp x), decodeWord_encode (.sknp x), fun k hk => ⟨?_, ?_⟩, fun hrange => ⟨?_, ?_⟩⟩
  · exact (exec_skp x s).trans (skipOnKey_of_key true _ hk)
  · simp only [exec_sknp, skipOnKey_of_key false _ hk, ← Bool.not_eq_true, ite_not]
  · exact (exec_skp x s).trans (skipOnKey_of_ge true _ x s hrange)
  · exact (exec_sknp x s).trans (skipOnKey_of_ge false _ x s hrange)

end Sys2Proof.Proofs

/-! PROOFS. The faults of a step, the timer gate, the key events, and the host contract (`60_exceptions.md` R170 to
R186, R197; `70_reset_and_hazards.md` R213). -/

namespace Sys2Proof.Proofs

open Sys2Proof.Machine Sys2Proof.Safety Sys2Proof.Laws

/-! ### The illegal words (R171) -/

theorem step_of_illegal {s : State} (hf : s.fault = none) (hw : s.wait = false) (hd : decodeWord (fetchWord s) = none) :
    step s = raise .invalidInstruction (fetchWord s) s := by
  rw [step_open s hf hw, hd]

/-- Settles O7: the fault is raised at decode, past both gates, and 0x0000 is an instruction. -/
theorem illegalWordRaisesInvalidInstruction : Obligations.IllegalWordRaisesInvalidInstruction :=
  ⟨fun s hf hw hd => (step_of_illegal hf hw hd).trans (raise_eq _ _ s), decodeWord_zero⟩

/-! ### The timer gate (R182, R183) -/

/-- Settles O48: a tick is halted, reaches the interval or does not, and each clause speaks of one of the three. -/
theorem tickGateOpensOncePerInterval : Obligations.TickGateOpensOncePerInterval := by
  intro elapsed s
  rcases tickTimers_cases elapsed s with ⟨hhalted, e⟩ | ⟨hf, hreached, e⟩ | ⟨hf, hbelow, e⟩
  · exact ⟨fun hf => absurd hf hhalted, fun hf => absurd hf hhalted, fun _ => e⟩
  · rw [e]
    exact ⟨fun _ hbelow => absurd hreached (Nat.not_le.2 hbelow),
      fun _ _ => ⟨rfl, timerDown_toNat s.dt, timerDown_toNat s.st⟩, fun hhalted => absurd hf hhalted⟩
  · exact ⟨fun _ _ => e, fun _ hreached => absurd hbelow (Nat.not_lt.2 hreached), fun hhalted => absurd hf hhalted⟩

/-! ### The key events (R185, R186) -/

/-- A key going down is one entry of the key table, whether it ends a wait or not. -/
theorem key_keyDown (k : KeyCode) {s : State} (hf : s.fault = none) : (keyDown k s).key = (setKey s k true).key := by
  rcases keyDown_cases k s with ⟨hhalted, -⟩ | ⟨-, -, e⟩ | ⟨-, -, e⟩
  · exact absurd hf hhalted
  · rw [e]
  · rw [e]; rfl

theorem keyUp_of_running (k : KeyCode) {s : State} (hf : s.fault = none) : keyUp k s = setKey s k false := by
  rcases keyUp_cases k s with ⟨hhalted, -⟩ | ⟨-, e⟩
  · exact absurd hf hhalted
  · exact e

theorem keyEvents_of_halted (k : KeyCode) {s : State} (hf : s.fault ≠ none) : keyDown k s = s ∧ keyUp k s = s :=
  have hhalted := (halted_iff s).2 hf
  ⟨if_pos hhalted, if_pos hhalted⟩

/-- Settles O50: a running machine enters the key in its table, and a waiting one also takes the code into its register. -/
theorem keyDownSetsTheKeyAndResumes : Obligations.KeyDownSetsTheKeyAndResumes := by
  refine fun k s => ⟨fun _ hw => keyDown_frame_of_not_wait k hw, fun hf hw => ⟨?_, fun r => ?_⟩, fun hf q => ?_,
    fun hf => ⟨keyUp_frame k s, fun q => ?_⟩, keyEvents_of_halted k⟩
  · rw [keyDown_of_wait k hf hw]; rfl
  · rw [getV_keyDown_of_wait k hf hw, apply_ite BitVec.toNat, zextKey_toNat]
  · calc getKey (keyDown k s) q
      _ = getKey (setKey s k true) q := by simp only [getKey, key_keyDown k hf]
      _ = if q = k then true else getKey s q := getKey_setKey s k q true
  · rw [keyUp_of_running k hf]
    exact getKey_setKey s k q false

/-! ### The host contract (R197, R213) -/

theorem hostRun_of_not_allowed {p : HostPhase} {tr : Transaction} {s : State} (h : hostAllows p tr s = none)
    (ts : List Transaction) : hostRun p s (tr :: ts) = .refused .outsideHostContract := by
  rw [hostRun, h]

theorem hostRun_of_allowed {p q : HostPhase} {tr : Transaction} {s u : State} (hallow : hostAllows p tr s = some q)
    (h : transact tr s = .next u) (ts : List Transaction) : hostRun p s (tr :: ts) = hostRun q u ts := by
  rw [hostRun, hallow, h]

/-- At power-up the contract allows a reset alone (R197). -/
theorem hostAllows_powerUp {tr : Transaction} (hreset : tr ≠ .reset) (s : State) : hostAllows .powerUp tr s = none := by
  cases tr with
  | reset => exact absurd rfl hreset
  | load | step | tickTimers | keyDown | keyUp => rfl

theorem loadError_of_fits {bs : List Byte} (hfits : bs.length ≤ maxImage) (s : State) : loadError bs s = false := by
  rw [loadError, decide_eq_false (Nat.not_lt.2 hfits), Bool.and_false]

/-- After the reset an image that fits is accepted (R213 (1)). -/
theorem hostAllows_fresh_load {bs : List Byte} (hfits : bs.length ≤ maxImage) (s : State) :
    hostAllows .fresh (.load bs) s = some .loaded := by
  rw [hostAllows, loadError_of_fits hfits s]
  rfl

/-- The boot order of R213: each of the three transactions is allowed in the phase that the one before leaves. -/
theorem hostRun_boot {bs : List Byte} (hfits : bs.length ≤ maxImage) (s : State) :
    hostRun .powerUp s [.reset, .load bs, .step] = transactAll [.reset, .load bs, .step] s := by
  obtain ⟨t, ht⟩ := step_answers (load bs (resetCore s))
  calc hostRun .powerUp s [.reset, .load bs, .step]
    _ = hostRun .fresh (resetCore s) [.load bs, .step] := hostRun_of_allowed rfl rfl _
    _ = hostRun .loaded (load bs (resetCore s)) [.step] := hostRun_of_allowed (hostAllows_fresh_load hfits _) rfl _
    _ = .next t := hostRun_of_allowed (tr := .step) rfl ht []
    _ = transactAll [.step] (load bs (resetCore s)) := (transactAll_cons_of_next (tr := .step) ht []).symm
    _ = transactAll [.reset, .load bs, .step] s := rfl

/-- Settles O54: the four transactions are not allowed in their phases, and the boot order is allowed to its end. -/
theorem hostContractOrdersTheBoot : Obligations.HostContractOrdersTheBoot :=
  ⟨fun _ ts s hreset => hostRun_of_not_allowed (hostAllows_powerUp hreset s) ts,
    fun ts _ => ⟨hostRun_of_not_allowed rfl ts, hostRun_of_not_allowed rfl ts⟩,
    fun _ ts _ => hostRun_of_not_allowed rfl ts,
    fun _ s hfits => hostRun_boot hfits s⟩

/-! ### The faults of a step (R170 to R178) -/

/-- The fault conditions (R170): in the state `s`, what was decoded, `none` for an illegal word, meets the condition of the
kind. -/
inductive FaultsWith (s : State) : Option Instr → FaultKind → Prop where
  | illegal : FaultsWith s none .invalidInstruction
  | overflow (nnn : Imm12) (hfull : s.sp.val = 16) : FaultsWith s (some (.call nnn)) .stackOverflow
  | underflow (hempty : s.sp.val = 0) : FaultsWith s (some .ret) .stackUnderflow
  | keyRange {i : Instr} (x : RegIdx) (hi : i = .skp x ∨ i = .sknp x) (hrange : 15 < (getV s x).toNat) :
      FaultsWith s (some i) .keyIndexRange

/-- Some fault condition holds exactly when one of those of the rules does. -/
theorem exists_faultsWith_iff {s : State} {d : Option Instr} :
    (∃ k, FaultsWith s d k) ↔ d = none ∨ ((∃ nnn, d = some (.call nnn)) ∧ s.sp.val = 16) ∨ (d = some .ret ∧ s.sp.val = 0) ∨
      ∃ x, (d = some (.skp x) ∨ d = some (.sknp x)) ∧ 15 < (getV s x).toNat := by
  constructor
  · rintro ⟨k, hk⟩
    cases hk with
    | illegal => exact .inl rfl
    | overflow nnn hfull => exact .inr (.inl ⟨⟨nnn, rfl⟩, hfull⟩)
    | underflow hempty => exact .inr (.inr (.inl ⟨rfl, hempty⟩))
    | keyRange x hi hrange => exact .inr (.inr (.inr ⟨x, hi.imp (congrArg some) (congrArg some), hrange⟩))
  · rintro (rfl | ⟨⟨nnn, rfl⟩, hfull⟩ | ⟨rfl, hempty⟩ | ⟨x, rfl | rfl, hrange⟩)
    · exact ⟨_, .illegal⟩
    · exact ⟨_, .overflow nnn hfull⟩
    · exact ⟨_, .underflow hempty⟩
    · exact ⟨_, .keyRange x (.inl rfl) hrange⟩
    · exact ⟨_, .keyRange x (.inr rfl) hrange⟩

theorem mayFault_of_faultsWith {s : State} {i : Instr} {k : FaultKind} (hk : FaultsWith s (some i) k) : mayFault i = true := by
  cases hk with
  | overflow | underflow => rfl
  | keyRange x hi => rcases hi with rfl | rfl <;> rfl

/-- The kind of a fault says what was decoded, and what was decoded says the kind. -/
theorem kind_iff_of_faultsWith {s : State} {d : Option Instr} {k : FaultKind} (hk : FaultsWith s d k) :
    (k = .invalidInstruction ↔ d = none) ∧ (k = .stackOverflow ↔ ∃ nnn, d = some (.call nnn)) ∧
    (k = .stackUnderflow ↔ d = some .ret) ∧ (k = .keyIndexRange ↔ ∃ x, d = some (.skp x) ∨ d = some (.sknp x)) := by
  cases hk with
  | illegal | overflow | underflow => simp
  | keyRange x hi => rcases hi with rfl | rfl <;> simp

theorem eq_encNNN_of_and_family {w : Word} {op : Nibble} {nnn : Imm12} (h : w &&& 0xF000 = encNNN op nnn &&& 0xF000) :
    w = encNNN op (fieldNNN w) := by
  have hop : fieldOp w = op := (fieldOp_of_and_family h).trans (fieldOp_encNNN op nnn)
  exact hop ▸ word_eq_encNNN w

theorem eq_encXNN_of_and_family_nn {w : Word} {op : Nibble} {x : RegIdx} {nn : Byte}
    (h : w &&& 0xF0FF = encXNN op x nn &&& 0xF0FF) : w = encXNN op (fieldX w) nn := by
  obtain ⟨hop, hnn⟩ := fields_of_and_family_nn h
  rw [fieldOp_encXNN] at hop
  rw [fieldNN_encXNN] at hnn
  exact hop ▸ hnn ▸ word_eq_encXNN w

theorem encode_of_eq_encode {w : Word} {i j : Instr} (hd : decodeWord w = some i) (hw : w = encode j) : encode i = w := by
  subst hw
  cases (decodeWord_encode j).symm.trans hd
  rfl

/-- The machine decodes every bit of the words of the four instructions with a fault condition, so such a word is the
encoding of its instruction (R175). -/
theorem encode_of_decodeWord {w : Word} {i : Instr} (hd : decodeWord w = some i) (hi : mayFault i = true) : encode i = w := by
  have hagree : w &&& i.row.mask = encode i &&& i.row.mask :=
    (holds_iff.1 (holds_of_decodeWord hd)).trans (holds_iff.1 (holds_of_decodeWord (decodeWord_encode i))).symm
  cases i with
  | ret => exact encode_of_eq_encode (j := .ret) hd (BitVec.and_allOnes.symm.trans hagree)
  | call nnn => exact encode_of_eq_encode (j := .call (fieldNNN w)) hd (eq_encNNN_of_and_family hagree)
  | skp x => exact encode_of_eq_encode (j := .skp (fieldX w)) hd (eq_encXNN_of_and_family_nn hagree)
  | sknp x => exact encode_of_eq_encode (j := .sknp (fieldX w)) hd (eq_encXNN_of_and_family_nn hagree)
  | _ => cases hi

/-- The result is the fault of the word `w` whose condition holds for `d`, or no condition holds and `FAULT` is kept
(R175, R176). -/
def FaultsExactly (s : State) (d : Option Instr) (w : Word) (r : Result) : Prop :=
  (∃ k, FaultsWith s d k ∧ r = raise k w s) ∨ ((¬ ∃ k, FaultsWith s d k) ∧ ∃ t, r = .next t ∧ t.fault = s.fault)

theorem skipOnKey_faultsExactly {i : Instr} {x : RegIdx} (hi : i = .skp x ∨ i = .sknp x) (down : Bool) (w : Word)
    (s : State) : FaultsExactly s (some i) w (skipOnKey down w x s) := by
  rcases skipOnKey_cases down w x s with ⟨hge, e⟩ | ⟨hlt, e⟩
  · exact .inl ⟨_, .keyRange x hi hge, e⟩
  · refine .inr ⟨?_, _, e, skipIf_fault _ s⟩
    rw [exists_faultsWith_iff]
    rcases hi with rfl | rfl <;> simpa using Nat.le_of_lt_succ hlt

theorem exec_faultsExactly {i : Instr} {w : Word} (hd : decodeWord w = some i) (s : State) :
    FaultsExactly s (some i) w (exec i s) := by
  by_cases hi : mayFault i = true
  · obtain rfl := encode_of_decodeWord hd hi
    cases i with
    | ret =>
      rcases exec_ret_cases s with ⟨hempty, e⟩ | ⟨hpos, e⟩
      · exact .inl ⟨_, .underflow hempty, e⟩
      · exact .inr ⟨by simpa [exists_faultsWith_iff] using hpos.ne', _, e, rfl⟩
    | call nnn =>
      rcases exec_call_cases nnn s with ⟨hfull, e⟩ | ⟨hroom, e⟩
      · exact .inl ⟨_, .overflow nnn hfull, e⟩
      · exact .inr ⟨by simpa [exists_faultsWith_iff] using hroom.ne, _, e, rfl⟩
    | skp x => exact skipOnKey_faultsExactly (.inl rfl) true _ s
    | sknp x => exact skipOnKey_faultsExactly (.inr rfl) false _ s
    | _ => cases hi
  · obtain ⟨t, e⟩ := exec_answers i s
    have hkeeps : t.fault = s.fault := (fieldFrame_of_exec e).fault (Bool.eq_false_iff.2 hi)
    exact .inr ⟨fun ⟨_, hk⟩ => hi (mayFault_of_faultsWith hk), t, e, hkeeps⟩

theorem step_faultsExactly {s : State} (hf : s.fault = none) (hw : s.wait = false) :
    FaultsExactly s (decodeWord (fetchWord s)) (fetchWord s) (step s) := by
  cases hd : decodeWord (fetchWord s) with
  | none => exact .inl ⟨_, .illegal, step_of_illegal hf hw hd⟩
  | some i => exact step_of_decodeWord hf hw hd ▸ exec_faultsExactly hd s

/-- Settles O9: a closed gate keeps the state; past both gates the step faults exactly under the conditions of the rules. -/
theorem faultsArePreciseAndExact : Obligations.FaultsArePreciseAndExact := by
  intro s t h
  by_cases hgated : s.fault ≠ none ∨ s.wait = true
  · cases (step_of_gated hgated).symm.trans h
    refine ⟨iff_of_false (absurd rfl) ?_, absurd rfl⟩
    rintro ⟨hf, hw, -⟩
    simp [hf, hw] at hgated
  · obtain ⟨hf, hw⟩ : s.fault = none ∧ s.wait = false := by simpa using hgated
    rw [← exists_faultsWith_iff]
    rcases step_faultsExactly hf hw with ⟨k, hk, e⟩ | ⟨hno, u, e, hkeeps⟩
    · cases e.symm.trans h
      exact ⟨iff_of_true (hf ▸ nofun) ⟨hf, hw, k, hk⟩, fun _ => ⟨k, rfl, kind_iff_of_faultsWith hk⟩⟩
    · cases e.symm.trans h
      exact ⟨iff_of_false (absurd hkeeps) fun ⟨_, _, hk⟩ => hno hk, absurd hkeeps⟩

end Sys2Proof.Proofs

/-! PROOFS. The reset and the load (`70_reset_and_hazards.md` R210, R212). -/

namespace Sys2Proof.Proofs

open Sys2Proof.Machine Sys2Proof.Laws

theorem loadError_of_long {s : State} {bs : List Byte} (hf : s.fault = none) (hlong : maxImage < bs.length) : loadError bs s = true := by
  rw [loadError, (halted_false_iff s).2 hf, decide_eq_true hlong]
  rfl

theorem loadError_of_halted {s : State} (hf : s.fault ≠ none) (bs : List Byte) : loadError bs s = false := by
  rw [loadError, (halted_iff s).2 hf]
  rfl

/-- Where the program is loaded lies inside memory (R4). -/
theorem programOffset_le_memSize : Config.params.programOffset ≤ Config.memSize := by decide

/-- A block of bytes that fits is stored from its place on, and every other byte is kept. -/
theorem memRead_storeBytes_getD (a : Nat) (bs : List Byte) (s : State) {c : Nat} (hc : c < Config.memSize)
    (hfits : a + bs.length ≤ Config.memSize) :
    memRead (storeBytes a bs s) c = if a ≤ c ∧ c < a + bs.length then bs.getD (c - a) 0 else memRead s c := by
  rw [memRead_storeBytes a bs s c hc hfits]
  split
  · exact List.getElem_eq_getD 0
  · rfl

/-- Settles O53: a load is halted, refused or accepted, and each clause speaks of one of the three. -/
theorem loadWritesTheImageOrNothing : Obligations.LoadWritesTheImageOrNothing := by
  intro bs s
  rcases load_cases bs s with ⟨hhalted, e⟩ | ⟨hf, hlong, e⟩ | ⟨hf, hfits, e⟩
  · exact ⟨fun hf => absurd hf hhalted, fun hf => absurd hf hhalted, fun _ => ⟨loadError_of_halted hhalted bs, e⟩⟩
  · exact ⟨fun _ hfits => absurd hlong (Nat.not_lt.2 hfits), fun _ _ => ⟨loadError_of_long hf hlong, e⟩,
      fun hhalted => absurd hf hhalted⟩
  · refine ⟨fun _ _ => ⟨loadError_of_fits hfits s, load_frame bs s, fun a ha => ?_⟩,
      fun _ hlong => absurd hfits (Nat.not_le.2 hlong), fun hhalted => absurd hf hhalted⟩
    rw [e, memRead_storeBytes_getD _ bs s ha (Nat.add_le_of_le_sub' programOffset_le_memSize hfits)]

theorem ea_of_lt {a : Nat} (h : a < Config.memSize) : ea a = a := Nat.mod_eq_of_lt h

/-- After a reset memory lists no byte, so each reads as the font byte or 0 (R30, R210). -/
theorem memRead_resetCore (s : State) {a : Nat} (h : a < Config.memSize) :
    memRead (resetCore s) a = Config.params.font.getD a 0 := congrArg Memory.unlisted (ea_of_lt h)

/-- Settles O46: the state after a reset is written out, and memory reads as if nothing had been stored. -/
theorem resetLeavesTheListedState : Obligations.ResetLeavesTheListedState := by
  intro s
  have hregs (x : RegIdx) : getV (resetCore s) x = 0 := Vector.getElem_replicate x.isLt
  have hkeys (k : KeyCode) : getKey (resetCore s) k = false := Vector.getElem_replicate k.isLt
  have hmem (a : Nat) (h : a < Config.memSize) :
      memRead (resetCore s) a = if h : a < Config.fontSize then Config.params.font[a]'h else 0 := by
    rw [memRead_resetCore s h]
    split
    case isTrue hfont => exact List.getD_eq_getElem _ 0 hfont
    case isFalse hfont => exact List.getD_eq_default _ 0 (Nat.not_lt.1 hfont)
  exact ⟨resetCore s, rfl, hregs, rfl, rfl, rfl, fun k hk => Vector.getElem_replicate hk, rfl, rfl, getPixel_clearScreen,
    hkeys, rfl, rfl, rfl, rfl, hmem⟩

end Sys2Proof.Proofs

/-! PROOFS. The shifts and the random byte (`42_alu.md` R128, R130, R131). -/

namespace Sys2Proof.Proofs

open Sys2Proof.Machine Sys2Proof.Laws

/-! ### The shifts: the flag first, then the shift of the new value (R128, R130) -/

/-- The `y` field of `SHR` is not decoded (R63). -/
theorem decodeWord_shr (x y : RegIdx) : decodeWord (encXYN 0x8 x y 0x6) = some (.shr x) := by
  simp only [decodeWord, fieldOp_encXYN, fieldX_encXYN, fieldY_encXYN, fieldN_encXYN]; rfl

/-- The `y` field of `SHL` is not decoded (R63). -/
theorem decodeWord_shl (x y : RegIdx) : decodeWord (encXYN 0x8 x y 0xE) = some (.shl x) := by
  simp only [decodeWord, fieldOp_encXYN, fieldX_encXYN, fieldY_encXYN, fieldN_encXYN]; rfl

/-- When `VF` is shifted, what is shifted is the flag just written to it (D12). -/
theorem getV_flagThenShift_vf (shift : Byte → Byte) (s : State) :
    getV (flagThenShift 15 shift s) 15 = shift (lsbFlag (getV s 15)) := by
  rw [flagThenShift, getV_setV, if_pos rfl, getV_setVF, if_pos rfl]

theorem getV_flagThenShift_of_ne {x : RegIdx} (hx : x ≠ 15) (shift : Byte → Byte) (s : State) :
    getV (flagThenShift x shift s) x = shift (getV s x) := by
  rw [flagThenShift, getV_setV, if_pos rfl, getV_setVF, if_neg hx]

theorem byteShiftRight_toNat (b : Byte) : (b >>> 1).toNat = b.toNat / 2 := by
  rw [BitVec.toNat_ushiftRight, Nat.shiftRight_one]

theorem byteShiftLeft_toNat (b : Byte) : (b <<< 1).toNat = 2 * b.toNat % 256 := by
  rw [BitVec.toNat_shiftLeft, Nat.shiftLeft_eq, Nat.mul_comm]

theorem lsbFlag_shiftRight (b : Byte) : lsbFlag b >>> 1 = 0 := by
  refine BitVec.eq_of_toNat_eq ?_
  rw [byteShiftRight_toNat, lsbFlag_toNat]
  exact Nat.div_eq_of_lt (Nat.mod_lt _ (by decide))

theorem lsbFlag_shiftLeft_toNat (b : Byte) : (lsbFlag b <<< 1).toNat = 2 * (b.toNat % 2) := by
  rw [byteShiftLeft_toNat, lsbFlag_toNat]
  omega

/-- An instruction that writes the low bit and then shifts: `num` is its shift on numbers, and `P` holds of the shifted low bit
of `VF`, which is what it leaves when `VF` is its operand. -/
theorem writesFlagThenShift_of_exec {i : Instr} {s : State} {x : RegIdx} {shift : Byte → Byte} (num : Nat → Nat)
    (P : Byte → Prop) (h : exec i s = .next (advance (flagThenShift x shift s)))
    (hshift : ∀ b : Byte, (shift b).toNat = num b.toNat) (hbit : P (shift (lsbFlag (getV s 15)))) :
    ∃ t, exec i s = .next t ∧ t = { s with v := t.v, pc := s.pc + 2 } ∧ (∀ k, k ≠ x → k ≠ 15 → getV t k = getV s k) ∧
      if x = 15 then P (getV t 15)
      else (getV t 15).toNat = (getV s x).toNat % 2 ∧ (getV t x).toNat = num (getV s x).toNat := by
  refine ⟨_, h, rfl, fun k hk h15 => getV_flagThenShift_of_notMem (mt List.mem_singleton.1 hk) h15, ?_⟩
  simp only [getV_advance]
  split
  case isTrue hx =>
    rw [hx, getV_flagThenShift_vf]
    exact hbit
  case isFalse hx =>
    rw [getV_flagThenShift_flag (mt List.mem_singleton.1 (Ne.symm hx)), getV_flagThenShift_of_ne hx, hshift]
    exact ⟨lsbFlag_toNat _, rfl⟩

/-- Settles O23: both are a flag and then a shift; a low bit halved is 0, and doubled does not wrap. -/
theorem shiftsWriteLowBitThenShift : Obligations.ShiftsWriteLowBitThenShift :=
  fun x y s => ⟨decodeWord_shr x y, decodeWord_shl x y,
    writesFlagThenShift_of_exec (· / 2) (· = 0) (exec_shr x s) byteShiftRight_toNat
      (lsbFlag_shiftRight _),
    writesFlagThenShift_of_exec (2 * · % 256) (fun b => b.toNat = 2 * ((getV s 15).toNat % 2)) (exec_shl x s)
      byteShiftLeft_toNat (lsbFlag_shiftLeft_toNat _)⟩

/-! ### The random byte (R131, R189) -/

/-- Settles O24: the byte at the draw counter is masked by `nn`, bit by bit. -/
theorem randomIsAFreshByteMasked : Obligations.RandomIsAFreshByteMasked := by
  intro x nn s
  refine ⟨decodeWord_encode (.rnd x nn), _, exec_rnd x nn s, rfl, fun b => ?_, fun k hk => ?_⟩
  · rw [getV_advance, randomInto, getV_setV, if_pos rfl, BitVec.getLsbD_and]
    cases nn.getLsbD b with
    | true => exact Bool.and_true _
    | false => exact Bool.and_false _
  · exact getV_setV_of_notMem (mt List.mem_singleton.1 hk)

end Sys2Proof.Proofs

/-! PROOFS. `ADDA`, `BCD`, and the fetch of what `STM` has stored (`43_index_memory.md` R141, R143; `20_memory.md`). -/

namespace Sys2Proof.Proofs

open Sys2Proof.Machine Sys2Proof.Laws

/-- Settles O26: the sum of a word and a zero-extended byte, in a word. -/
theorem addToAddressRegisterWrapsAt65536 : Obligations.AddToAddressRegisterWrapsAt65536 := by
  intro x s
  refine ⟨decodeWord_encode (.adda x), _, exec_adda x s, rfl, ?_⟩
  rw [advance_i, setI_i, BitVec.toNat_add, zextByte_toNat]

/-- The three digits of `BCD` stand at three different bytes. -/
theorem ea_indexAddr_ne (s : State) {j k : Nat} (hj : j < 3) (hk : k < 3) (hne : j ≠ k) :
    ea (indexAddr s j) ≠ ea (indexAddr s k) :=
  fun h => hne (ea_add_inj (by omega) (by omega) h)

/-- Settles O27: three stores to three different bytes, so each digit is there at the end. -/
theorem decimalDigitsAreStored : Obligations.DecimalDigitsAreStored := by
  intro x s
  refine ⟨decodeWord_encode (.bcd x), _, exec_bcd x s, rfl, ?_, ?_, ?_, fun a ha => ?_⟩
  · rw [memRead_advance, memRead_storeDigits, if_neg (ea_indexAddr_ne s (by decide) (by decide) (by decide)),
      if_neg (ea_indexAddr_ne s (by decide) (by decide) (by decide)), if_pos rfl, hundreds_toNat]
  · rw [memRead_advance, memRead_storeDigits, if_neg (ea_indexAddr_ne s (by decide) (by decide) (by decide)), if_pos rfl,
      tens_toNat]
  · rw [memRead_advance, memRead_storeDigits, if_pos rfl, units_toNat]
  · rw [memRead_advance, memRead_storeDigits, if_neg (ha 2 (by decide)), if_neg (ha 1 (by decide)), if_neg (ha 0 (by decide))]

/-- A read depends on the effective address alone (R41, R42). -/
theorem memRead_of_ea_eq (s : State) {a b : Nat} (h : ea a = ea b) : memRead s a = memRead s b :=
  congrArg (Memory.read s.mem) h

/-- Settles O45: each of the two fetched bytes is one that `STM` has stored. -/
theorem storeIsSeenByTheNextFetch : Obligations.StoreIsSeenByTheNextFetch := by
  intro x j k s t h hj hk hhigh hlow
  rw [fetchWord, memRead_of_ea_eq t hhigh, memRead_of_ea_eq t hlow, memRead_of_exec_stm h hj, memRead_of_exec_stm h hk]

end Sys2Proof.Proofs

/-! PROOFS. Properties of the compositor: a sprite drawn twice, and an empty one on a blank screen (`44_display.md`). -/

namespace Sys2Proof.Proofs

open Sys2Proof.Machine Sys2Proof.Laws

/-- The source bit that `DRW` brings to a pixel, false where the sprite does not reach. -/
def drawnBit (x y : RegIdx) (n : Nibble) (s : State) (row : Fin 32) (col : Fin 64) : Bool :=
  sourceBit (fun r => memRead s (indexAddr s r)) (getV s x).toNat (getV s y).toNat n.toNat row col

section
variable (x y : RegIdx) (n : Nibble) (s : State)

theorem getPixel_drawSprite (row : Fin 32) (col : Fin 64) :
    getPixel (drawSprite x y n s).fb row col = (getPixel s.fb row col ^^ drawnBit x y n s row col) :=
  drawSprite_pixel x y n s row col

/-- A source bit that is 1 comes from the row and column of the sprite at the pixel's distances to the corner. -/
theorem drawnBit_eq_true_iff (row : Fin 32) (col : Fin 64) :
    drawnBit x y n s row col = true ↔ ∃ r < n.toNat, ∃ j < 8, (memRead s (indexAddr s r)).getLsbD (7 - j) = true ∧
      rowOf ((getV s y).toNat + r) = row ∧ colOf ((getV s x).toNat + j) = col := by
  have hn : n.toNat < 16 := n.isLt
  constructor
  · intro h
    simp only [drawnBit, sourceBit, Bool.and_eq_true, decide_eq_true_eq] at h
    obtain ⟨⟨hr, hj⟩, hbit⟩ := h
    exact ⟨_, hr, _, hj, hbit, rowOf_rowDist _ row, colOf_colDist _ col⟩
  · rintro ⟨r, hr, j, hj, hbit, rfl, rfl⟩
    rw [drawnBit, sourceBit_rowOf_colOf _ _ _ (by omega) hr hj]
    exact hbit

/-- `VF` after `DRW`, pixel by pixel: some source bit 1 falls on a pixel that is on (R152). -/
theorem drawSprite_hit_iff :
    getV (drawSprite x y n s) 15 = 1 ↔ ∃ row col, drawnBit x y n s row col = true ∧ getPixel s.fb row col = true := by
  rw [drawSprite_hit]
  constructor
  · rintro ⟨r, hr, j, hj, hbit, hon⟩
    exact ⟨_, _, (drawnBit_eq_true_iff x y n s _ _).2 ⟨r, hr, j, hj, hbit, rfl, rfl⟩, hon⟩
  · rintro ⟨row, col, hdrawn, hon⟩
    obtain ⟨r, hr, j, hj, hbit, rfl, rfl⟩ := (drawnBit_eq_true_iff x y n s row col).1 hdrawn
    exact ⟨r, hr, j, hj, hbit, hon⟩

/-- A second draw reads the same coordinates, unless the first has put its flag into one of them, and the same bytes. -/
theorem drawnBit_drawSprite {x y : RegIdx} (hx : x ≠ 15) (hy : y ≠ 15) :
    drawnBit x y n (advance (drawSprite x y n s)) = drawnBit x y n s := by
  funext row col
  simp only [drawnBit, getV_advance, drawSprite_getV x y n s x hx, drawSprite_getV x y n s y hy]
  rfl

/-- A sprite whose bytes are all 0 has no source bit 1. -/
theorem drawnBit_of_zero {s : State} (hzero : ∀ r < n.toNat, memRead s (indexAddr s r) = 0) (row : Fin 32) (col : Fin 64) :
    drawnBit x y n s row col = false := by
  rw [← Bool.not_eq_true, drawnBit_eq_true_iff]
  rintro ⟨r, hr, j, -, hbit, -⟩
  rw [hzero r hr] at hbit
  exact Bool.false_ne_true (BitVec.getLsbD_zero.symm.trans hbit)

end

/-- Settles O32: the second draw XORs the same source bits, and meets a pixel that is on exactly where the first lit one. -/
theorem drawTwiceRestoresTheScreen : Obligations.DrawTwiceRestoresTheScreen := by
  intro x y n s t u hx hy ht hu
  cases (exec_drw x y n s).symm.trans ht
  cases (exec_drw x y n _).symm.trans hu
  have hfirst := getPixel_drawSprite x y n s
  have hsecond := getPixel_drawSprite x y n (advance (drawSprite x y n s))
  have hsame := drawnBit_drawSprite n s hx hy
  refine ⟨screen_ext _ _ fun row col => ?_, ?_⟩
  · rw [advance_fb, hsecond, hsame, advance_fb, hfirst, Bool.xor_assoc, Bool.xor_self, Bool.xor_false]
  · rw [getV_advance, drawSprite_hit_iff, hsame]
    refine exists_congr fun row => exists_congr fun col => ?_
    rw [advance_fb, hfirst]
    cases getPixel s.fb row col <;> simp

/-- Settles O33: no source bit is 1, so the blank screen stays and nothing collides. -/
theorem clearThenEmptySpriteLeavesScreenOff : Obligations.ClearThenEmptySpriteLeavesScreenOff := by
  intro x y n s t u hzero ht hu
  cases (exec_cls s).symm.trans ht
  have hnone := drawnBit_of_zero x y n (s := advance { s with fb := clearScreen }) hzero
  have hflag : getV u 15 = 0 ∨ getV u 15 = 1 := flag_of_exec hu rfl List.not_mem_nil
  cases (exec_drw x y n _).symm.trans hu
  refine ⟨fun row col => ?_, hflag.resolve_right fun hone => ?_⟩
  · rw [advance_fb, getPixel_drawSprite, hnone, Bool.xor_false]
    exact getPixel_clearScreen row col
  · obtain ⟨row, col, hdrawn, -⟩ := (drawSprite_hit_iff x y n _).1 hone
    exact Bool.false_ne_true ((hnone row col).symm.trans hdrawn)

end Sys2Proof.Proofs

/-! PROOFS. The timers (`45_timer_key.md` R160 to R162, `60_exceptions.md` R182), the words of the spec's vectors, and the
placing of one instruction. -/

namespace Sys2Proof.Proofs

open Sys2Proof.Machine Sys2Proof.Laws

/-- Settles O47: each timer goes down by itself. -/
theorem timersCountDownAndStopAtZero : Obligations.TimersCountDownAndStopAtZero :=
  fun s => ⟨rfl, timerDown_toNat s.dt, timerDown_toNat s.st⟩

/-- Settles O34: `GDT` writes one register, `SDT` and `SST` one timer each. -/
theorem timerInstructionsCopyAByte : Obligations.TimerInstructionsCopyAByte :=
  fun x s => ⟨decodeWord_encode (.gdt x), decodeWord_encode (.sdt x), decodeWord_encode (.sst x),
    ⟨_, exec_gdt x s, rfl, fun k => getV_setV s x k s.dt⟩, exec_sdt x s, exec_sst x s⟩

/-- Settles O4: twenty-three closed words, run through the decoder. -/
theorem wordsOfTheSpecDecode : Obligations.WordsOfTheSpecDecode := by
  unfold Obligations.WordsOfTheSpecDecode
  decide

/-- A table word that is an instruction is one by its own bits (R60). -/
theorem decodeWord_of_decodeTableWord {nbits w : Nat} {i : Instr} (h : decodeTableWord nbits w = some i) :
    decodeWord (BitVec.ofNat 16 (w % 2 ^ nbits)) = some i := by
  rw [decodeTableWord] at h
  split at h
  case isFalse => cases h
  case isTrue =>
    split at h
    case h_2 => cases h
    case h_1 hd =>
      cases h
      exact (congrArg decodeWord (wordOfBytes_bytes _)).symm.trans (decodeWord_of_decode hd)

/-- The placed instruction takes up the two bytes at `pc` and no other. -/
theorem memRead_withFetchWord_of_outside (s : State) (nbits w : Nat) {a : Nat} (hhigh : ea a ≠ ea s.pc.toNat)
    (hlow : ea a ≠ ea (s.pc.toNat + 1)) : memRead (s.withFetchWord nbits w) a = memRead s a := by
  change memRead (memWrite (memWrite s _ _) _ _) a = memRead s a
  rw [memRead_memWrite, if_neg hlow, memRead_memWrite, if_neg hhigh]

/-- Settles O55: both gates are open and the word fetched is the word placed. -/
theorem placedInstructionIsTheOneExecuted : Obligations.PlacedInstructionIsTheOneExecuted := by
  intro s w i h
  have hd : decodeWord (fetchWord (s.withFetchWord 16 w)) = some i :=
    (congrArg decodeWord (fetchWord_withFetchWord s 16 w)).trans (decodeWord_of_decodeTableWord h)
  exact ⟨step_of_decodeWord (withFetchWord_fault s 16 w) (withFetchWord_wait s 16 w) hd, rfl,
    fun _ => memRead_withFetchWord_of_outside s 16 w⟩

end Sys2Proof.Proofs
